-- ==== Sys2Proof/Word.lean ====
section
/-! DEFINITION. The word types of RCS-FIFO: the byte, the two words of unit D, and the index type of unit F.
Capacities, counts, remainders and command words are naturals bounded by the parameter `W` (00_scope R7, R11). -/

namespace Sys2Proof

/-- One storage slot or stream element, 8 bits (00_scope R8; the width is the spec's G1). -/
abbrev Byte := BitVec 8

/-- The operand word of unit D, `{byte_high, byte_mid, byte_low}` (30_encoding R82). -/
abbrev DecIn := BitVec 24

/-- The result word of unit D (30_encoding R83). -/
abbrev DecOut := BitVec 32

/-- `Idx`: `none` is the marker NONE, `some n` the slot index `n` (00_scope R12; 30_encoding R80). -/
abbrev Idx := Option Nat

end Sys2Proof
end

