-- ==== Sys2Proof/Config.lean ====
section
/-! DEFINITION. The parameters the spec leaves open (00_scope R7) and the free values (00_scope R14, `draw`). -/

namespace Sys2Proof

/-- `FULL_POLICY`: which definition of "full" the block uses (41_status R123, R125; 92 D11). -/
inductive FullPolicy where
  | tailNextEqHead
  | oneSlotWasted
  deriving DecidableEq, Repr

/-- `ISFULL_ABSENT`: what ISFULL and `st_full` show while the buffer is Deinitialized (41_status R124; 92 D13). -/
inductive IsfullAbsent where
  | any
  | isTrue
  | isFalse
  deriving DecidableEq, Repr

/-- The four parameters of 00_scope R7. `none` is `INF`. They stand in State as plain data that no step changes, so that a
statement for all states is a statement for all parameter values (log 1, DESIGN CHOICE). -/
structure Config where
  /-- `W`: the width of the command argument and of the response value. -/
  width : Option Nat
  /-- `CAP_MAX`: the number of slots of the physical array. -/
  capMax : Option Nat
  fullPolicy : FullPolicy
  isfullAbsent : IsfullAbsent
  deriving DecidableEq, Repr

namespace Config

/-- The values 00_scope R7 suggests: `W = 16`, `CAP_MAX = 2^16 - 1`, the normative full policy, `ANY`. -/
def suggested : Config := ⟨some 16, some (2 ^ 16 - 1), .tailNextEqHead, .any⟩

/-- `a` is a value of the unsigned `W`-bit argument or response (30_encoding R71, R75, R85). -/
def argFits (cfg : Config) (a : Nat) : Bool :=
  match cfg.width with
  | none => true
  | some w => decide (a < 2 ^ w)

/-- `c` does not exceed `CAP_MAX` (40_lifecycle R101 (b); never exceeded when `CAP_MAX = INF`). -/
def capFits (cfg : Config) (c : Nat) : Bool :=
  match cfg.capMax with
  | none => true
  | some m => decide (c ≤ m)

/-- The constraints of 00_scope R7: `W >= 1`, and `1 <= CAP_MAX <= 2^W - 1` or `INF`. -/
def wf (cfg : Config) : Bool :=
  (match cfg.width with
    | none => true
    | some w => decide (1 ≤ w)) &&
  (match cfg.capMax with
    | none => true
    | some m => decide (1 ≤ m) && cfg.argFits m)

/-- FREE VALUE: the bit that the n-th draw yields (41_status R124, `draw(bit)`; log 3). No body: nothing constrains it. -/
opaque freeBit : Nat → Bool

/-- FREE VALUE: the byte that the n-th draw yields for a slot nothing has written since the last INIT (10_state R25; log 4).
No body: nothing constrains it. -/
opaque freeByte : Nat → Byte

end Config

end Sys2Proof
end

