-- ==== Sys2Proof/Syntax.lean ====
section
/-! DEFINITION. The operations (one constructor per row of the opcode table), what a host presents at a port, and the host's
actions (70_reset R225). -/

namespace Sys2Proof

/-- The eight operations (00_scope R2; 30_encoding R72). A WRITE request is the pair of its count and its data
(30_encoding R79). -/
inductive Instr where
  | init (c : Nat)
  | deinit
  | flush
  | isempty
  | isfull
  | write (count : Nat) (data : List Byte)
  | read (count : Nat)
  | decode (byteHigh byteMid byteLow : Byte)
  deriving DecidableEq, Repr

namespace Instr

/-- The mnemonic of 30_encoding R72 and R92. -/
def mnemonic : Instr → String
  | .init _ => "INIT"
  | .deinit => "DEINIT"
  | .flush => "FLUSH"
  | .isempty => "ISEMPTY"
  | .isfull => "ISFULL"
  | .write _ _ => "WRITE"
  | .read _ => "READ"
  | .decode _ _ _ => "DECODE"

/-- The pseudo-operation `PUSH b`, which is `WRITE 1 [b]` (30_encoding R93). -/
def push (b : Byte) : Instr := .write 1 [b]

/-- The pseudo-operation `POP`, which is `READ 1` (30_encoding R93). -/
def pop : Instr := .read 1

end Instr

/-- What the host presents at a port for one transaction: a command word and the bytes offered on the write stream, or the
operand word of unit D (30_encoding R70, R79, R82). A command word is a natural, because its width is the parameter `W + 3`. -/
inductive Presented where
  | cmd (word : Nat) (data : List Byte)
  | dec (word : DecIn)
  deriving DecidableEq, Repr

/-- The input pins of unit F in the cycle before a rising edge of `clk` (30_encoding R86). -/
structure PinsIn where
  rst : Bool
  cmdValid : Bool
  cmd : Nat
  wrValid : Bool
  wrData : Byte
  rdReady : Bool
  deriving DecidableEq, Repr

/-- One action of the host (70_reset R225). `edge p advance` is one rising edge of `clk` with input pins `p`; the bit
`advance` says whether the block is ready to make progress in that cycle, since the number of cycles an operation takes is
not specified (30_encoding R87; 70_reset R240; log 8). -/
inductive Request where
  | op (p : Presented)
  | reset
  | sample
  | edge (p : PinsIn) (advance : Bool)
  deriving DecidableEq, Repr

end Sys2Proof
end

