-- ==== Sys2Proof/WellFormed.lean ====
section
/-! DEFINITION. Well-formed operations: what the encoding of 30_encoding can carry under given parameters. -/

namespace Sys2Proof

/-- The argument of INIT, WRITE and READ is an unsigned `W`-bit natural (30_encoding R71, R85 (a)), and a WRITE request has
exactly `count` data bytes (R79; 93 U12). Every other operation, and every triple of unit D, is well-formed (R74, R85 (b)). -/
def WellFormed (cfg : Config) : Instr → Bool
  | .init c => cfg.argFits c
  | .deinit => true
  | .flush => true
  | .isempty => true
  | .isfull => true
  | .write count data => cfg.argFits count && data.length == count
  | .read count => cfg.argFits count
  | .decode _ _ _ => true

end Sys2Proof
end

