-- ==== Sys2Proof/Decode.lean ====
section
/-! DEFINITION. The decoder of both ports, total and rejecting by name, and after it the encoder (30_encoding R70 to R85). -/

namespace Sys2Proof

/-- The seven operation codes of the command port (30_encoding R72). -/
inductive Op where
  | init | deinit | flush | isempty | isfull | write | read
  deriving DecidableEq, Repr

/-- Why a presented word is no operation. -/
inductive Reject where
  /-- The word is not a `W + 3` bit word: its argument field does not fit in `W` bits (30_encoding R71). -/
  | wordTooWide
  /-- `op = 7` (30_encoding R74). -/
  | reservedOpcode
  /-- A WRITE request whose data is not exactly `count` bytes (30_encoding R79; 93 U12). -/
  | dataLengthMismatch
  deriving DecidableEq, Repr

/-- The operation code column of 30_encoding R72. -/
def Op.code : Op → Nat
  | .init => 0
  | .deinit => 1
  | .flush => 2
  | .isempty => 3
  | .isfull => 4
  | .write => 5
  | .read => 6

/-- The operation of a code; `none` for the reserved code 7 (30_encoding R72, R74). -/
def Op.ofCode : Nat → Option Op
  | 0 => some .init
  | 1 => some .deinit
  | 2 => some .flush
  | 3 => some .isempty
  | 4 => some .isfull
  | 5 => some .write
  | 6 => some .read
  | _ => none

/-- `CMD[2:0]` (30_encoding R71). -/
def cmdOp (word : Nat) : Nat := word % 8

/-- `CMD[W+2:3]`, taken as an unsigned natural (30_encoding R71, R85 (a)). -/
def cmdArg (word : Nat) : Nat := word / 8

/-- The operation that a command word and the offered write-stream bytes stand for. DEINIT, FLUSH, ISEMPTY and ISFULL ignore
the argument (30_encoding R73). Only WRITE looks at the write stream; bytes offered beside another command are never taken
(30_encoding R87; 93 U12). -/
def decodeCmd (cfg : Config) (word : Nat) (data : List Byte) : Except Reject Instr :=
  if cfg.argFits (cmdArg word) then
    match Op.ofCode (cmdOp word) with
    | none => .error .reservedOpcode
    | some .init => .ok (.init (cmdArg word))
    | some .deinit => .ok .deinit
    | some .flush => .ok .flush
    | some .isempty => .ok .isempty
    | some .isfull => .ok .isfull
    | some .write =>
      if data.length = cmdArg word then .ok (.write (cmdArg word) data) else .error .dataLengthMismatch
    | some .read => .ok (.read (cmdArg word))
  else .error .wordTooWide

/-- `DEC_IN[23:16]`, `DEC_IN[15:8]`, `DEC_IN[7:0]` (30_encoding R82). Every 24-bit word is legal (R74). -/
def decodeDec (word : DecIn) : Instr :=
  .decode (word.extractLsb' 16 8) (word.extractLsb' 8 8) (word.extractLsb' 0 8)

/-- The decoder of both ports. -/
def decode (cfg : Config) : Presented → Except Reject Instr
  | .cmd word data => decodeCmd cfg word data
  | .dec word => .ok (decodeDec word)

/-- `{arg, op}` (30_encoding R71). -/
def cmdWord (op : Op) (arg : Nat) : Nat := arg * 8 + op.code

/-- What a host presents for an operation. An assembler emits `arg = 0` where the argument is ignored (30_encoding R73). -/
def encode : Instr → Presented
  | .init c => .cmd (cmdWord .init c) []
  | .deinit => .cmd (cmdWord .deinit 0) []
  | .flush => .cmd (cmdWord .flush 0) []
  | .isempty => .cmd (cmdWord .isempty 0) []
  | .isfull => .cmd (cmdWord .isfull 0) []
  | .write count data => .cmd (cmdWord .write count) data
  | .read count => .cmd (cmdWord .read count) []
  | .decode byteHigh byteMid byteLow => .dec (byteHigh ++ byteMid ++ byteLow)

/-- What the host of this package means by a row's word: the DECODE row is the one row with no opcode bits, whose table
pattern is 24 bits; every other row is a command word, and the write stream a WRITE needs is bytes of zeros (log 7). -/
def presentTableWord (nbits w : Nat) : Presented :=
  if nbits = 24 ∨ nbits = 0 then .dec (BitVec.ofNat 24 w)
  else .cmd w (match Op.ofCode (cmdOp w) with
    | some .write => List.replicate (cmdArg w) 0
    | _ => [])

/-- The instruction the decoder reads from a table row's word, under the suggested parameters (log 7). -/
def decodeTableWord (nbits w : Nat) : Option Instr :=
  match decode Config.suggested (presentTableWord nbits w) with
  | .ok i => some i
  | .error _ => none

/-- A byte list in the listing form `[10,20,30]` (30_encoding R92). -/
def listBytes (bs : List Byte) : String :=
  "[" ++ ",".intercalate (bs.map fun b => toString b.toNat) ++ "]"

/-- The listing form of an operation, decimal operands (30_encoding R92). -/
def Instr.listing : Instr → String
  | .init c => "INIT " ++ toString c
  | .write count data => "WRITE " ++ toString count ++ " " ++ listBytes data
  | .read count => "READ " ++ toString count
  | .decode h m l => "DECODE " ++ toString h.toNat ++ "," ++ toString m.toNat ++ "," ++ toString l.toNat
  | .deinit => "DEINIT"
  | .flush => "FLUSH"
  | .isempty => "ISEMPTY"
  | .isfull => "ISFULL"

end Sys2Proof
end

