-- ==== Sys2Proof/Machine/State.lean ====
section
/-! DEFINITION. The state of RCS-FIFO, its reset value, and the reasons a step can stop. -/

namespace Sys2Proof.Machine

open Sys2Proof

/-- The backing store: (slot, byte) pairs in strictly rising slot order. An unlisted slot holds no value
(10_state R25; log 4). -/
abbrev Memory := List Host.Cell

/-- The canonical form: slots strictly rising. (An unlisted slot holds no value, so no listed byte equals it.) -/
abbrev Memory.wf (m : Memory) : Prop := m.Pairwise fun x y => x.1 < y.1

/-- What the command port is working on (30_encoding R86, R87; log 8). -/
inductive Phase where
  /-- `cmd_ready` is high. -/
  | idle
  /-- A command without a stream was taken and not yet answered. -/
  | command (i : Instr)
  /-- A WRITE burst. -/
  | writing
  /-- A READ burst. -/
  | reading
  /-- The one cycle in which `rsp_valid` is high. -/
  | responding
  deriving DecidableEq, Repr

/-- The burst bookkeeping of the signal-level binding (10_state R36). -/
structure Burst where
  phase : Phase
  /-- The byte index `i`. -/
  index : Nat
  /-- The latched count. -/
  count : Nat
  /-- The model's own record of the bytes that crossed the stream in this burst, oldest first (log 8). -/
  stream : List Byte
  deriving DecidableEq, Repr

/-- No burst in progress (10_state R37). -/
def Burst.none : Burst := ⟨.idle, 0, 0, []⟩

/-- The `busy` bit (10_state R36). -/
def Burst.busy (b : Burst) : Bool := b.phase != .idle

/-- What the host got back for a completed operation of unit F: the RSP value (30_encoding R75), the bytes taken from the
write stream and the bytes delivered on the read stream (R79). -/
structure Response where
  value : Nat
  taken : List Byte
  out : List Byte
  deriving DecidableEq, Repr

/-- `st_present`, `st_empty`, `st_full` (30_encoding R88). -/
structure Status where
  present : Bool
  empty : Bool
  full : Bool
  deriving DecidableEq, Repr

/-- The output pins in the cycle before a rising edge (30_encoding R86). `rd = some b` is `rd_valid` high with `rd_data = b`;
`rsp = some v` is `rsp_valid` high with `rsp = v`; the data of an output that is not valid has no meaning and no value. -/
structure PinsOut where
  cmdReady : Bool
  wrReady : Bool
  rd : Option Byte
  rsp : Option Nat
  status : Status
  deriving DecidableEq, Repr

/-- The whole state. `present` to `store` is the tuple of 10_state R20, `burst` the hidden state of R36, `cfg` the parameters
of 00_scope R7 (log 1); the rest are the model's own fields for the host interface (log 2) and the draw counter (log 3). -/
structure State where
  cfg : Config
  present : Bool
  capacity : Nat
  head : Idx
  tail : Idx
  store : Memory
  burst : Burst
  /-- The host's actions not yet served, oldest first. -/
  pending : List Request
  /-- What the last completed operation of unit F returned. -/
  response : Option Response
  /-- The last `DEC_OUT` word handed to the host. -/
  decOut : Option DecOut
  /-- The last sample of the status outputs. -/
  status : Option Status
  /-- The output pins as sampled at the last clock edge. -/
  pins : Option PinsOut
  /-- How many free values have been drawn. -/
  draws : Nat
  deriving DecidableEq, Repr

/-- The state right after reset (10_state R37, 70_reset R220): Deinitialized, no burst, under the suggested parameters
(log 1); nothing has yet crossed the host interface (log 2, log 3). -/
def State.reset : State :=
  { cfg := Config.suggested
    present := false
    capacity := 0
    head := none
    tail := none
    store := []
    burst := Burst.none
    pending := []
    response := none
    decOut := none
    status := none
    pins := none
    draws := 0 }

/-- The one fault of the model; the hardware has none (60_exceptions R190). -/
inductive Fault where
  /-- Raised by the store accesses `memRead` and `memWrite` when storage is absent or the slot index is not below `capacity`
  (20_memory R50, R54). No state that meets the invariant raises it. Safe: the model stops where the spec describes no
  access (log 5). -/
  | noSuchSlot
  deriving DecidableEq, Repr

/-- The situations the spec gives no meaning. All safe: the model stops (log 6). -/
inductive Refusal where
  /-- Raised by no arm of this model: every instruction has its meaning. -/
  | notModelled (mnemonic : String)
  /-- Raised by the service of a command word with `op = 7` (30_encoding R74; 93 U6). Safe. -/
  | reservedOpcode
  /-- Raised by the service of a word that is not a `W + 3` bit word (30_encoding R71): no host can present it. Safe. -/
  | wordTooWide
  /-- Raised by WRITE when the data is not exactly `count` bytes (30_encoding R79; 93 U12). Safe. -/
  | dataLengthMismatch
  deriving DecidableEq, Repr

/-- The three outcomes of one step or one operation. -/
abbrev Out := Host.Outcome State Fault Refusal

end Sys2Proof.Machine
end

