-- ==== Sys2Proof/Machine/Operands.lean ====
section
/-! DEFINITION. Operand forms: the index successor of unit F, and the field arithmetic of unit D. The operands of a command
word are taken apart in Decode.lean. -/

namespace Sys2Proof.Machine

open Sys2Proof

/-- The successor of an index (00_scope R13), where wraparound happens: `NONE` is followed by slot 0, slot `capacity - 1` by
slot 0. -/
def nextSlot (capacity : Nat) : Idx → Nat
  | none => 0
  | some i => (i + 1) % capacity

/-- The field function of unit D: subtract `0x30`, keep the low 6 bits (43_decoder R171). The subtraction wraps in 8 bits. -/
def decField (b : Byte) : BitVec 6 := (b - 0x30#8).extractLsb' 0 6

/-- The result word of DECODE: the three fields at bits 17:12, 11:6 and 5:0, or-ed together (43_decoder R170). -/
def decTriple (byteHigh byteMid byteLow : Byte) : DecOut :=
  ((decField byteHigh).zeroExtend 32 <<< 12) ||| ((decField byteMid).zeroExtend 32 <<< 6)
    ||| (decField byteLow).zeroExtend 32

end Sys2Proof.Machine
end

