-- ==== Sys2Proof/Machine/Flags.lean ====
section
/-! DEFINITION. The status flags, none of them stored (10_state R31), the four named states (R32), and the spec-level views of
a state: occupancy, usable capacity, contents (R27, R29, R30). -/

namespace Sys2Proof.Machine

open Sys2Proof

/-- The byte a slot holds; `none` where no WRITE has stored one since the last INIT (10_state R25). -/
def Memory.read : Memory → Nat → Option Byte
  | [], _ => none
  | (a, b) :: m, i => if a = i then some b else Memory.read m i

/-- `occ(S)` (10_state R27): the distance from head to tail inclusive along the ring. `(t + (capacity - h)) % capacity` is
`(t - h) mod capacity` for `h <= capacity`. -/
def State.occ (s : State) : Nat :=
  match s.head, s.tail with
  | some h, some t => (t + (s.capacity - h)) % s.capacity + 1
  | _, _ => 0

/-- `usable(S)` (10_state R29). -/
def State.usable (s : State) : Nat :=
  if s.present then
    match s.cfg.fullPolicy with
    | .tailNextEqHead => s.capacity
    | .oneSlotWasted => s.capacity - 1
  else 0

/-- `empty(S)` (41_status R120). -/
def State.empty (s : State) : Bool := s.head.isNone

/-- Whether an evaluation of `full(S)` draws a free bit (41_status R124). -/
def State.fullIsDraw (s : State) : Bool := !s.present && s.cfg.isfullAbsent == .any

/-- `full(S)`: 41_status R123 (default policy), R125 (`ONE_SLOT_WASTED`, `occ(S) == capacity - 1`), R124 (Deinitialized). -/
def State.full (s : State) : Bool :=
  if s.present then
    match s.cfg.fullPolicy with
    | .tailNextEqHead => s.head.isSome && s.head == some (nextSlot s.capacity s.tail)
    | .oneSlotWasted => s.occ + 1 == s.capacity
  else
    match s.cfg.isfullAbsent with
    | .any => Config.freeBit s.draws
    | .isTrue => true
    | .isFalse => false

/-- The state after an evaluation of `full(S)`: a draw uses up one free value. -/
def State.afterFull (s : State) : State :=
  { s with draws := if s.fullIsDraw then s.draws + 1 else s.draws }

/-- The slot of the `j`-th oldest byte when the head is slot `h` (10_state R30). -/
def ringSlot (capacity h j : Nat) : Nat := (h + j) % capacity

/-- `contents(S)`, oldest byte first (10_state R30). A slot of the window that holds no value (no reachable state has one,
R28) contributes no byte. -/
def State.contents (s : State) : List Byte :=
  match s.head with
  | none => []
  | some h => (List.range s.occ).filterMap fun j => s.store.read (ringSlot s.capacity h j)

/-- The four states of the source's state machine (10_state R32). -/
inductive Named where
  | deinitialized
  | empty
  | full
  | partiallyFilled
  deriving DecidableEq, Repr

/-- Which of the four states `s` is in, tested in the order of 10_state R32. -/
def State.classify (s : State) : Named :=
  if s.present then
    if s.head.isNone then .empty
    else if s.full then .full
    else .partiallyFilled
  else .deinitialized

/-- The status outputs (30_encoding R88). -/
def State.statusOut (s : State) : Status := ⟨s.present, s.empty, s.full⟩

/-- The RSP value of a boolean (30_encoding R77). -/
def boolRsp (b : Bool) : Nat := if b then 1 else 0

/-- The five components of unit F (10_state R20), for comparing two states as R20 says. -/
structure UnitF where
  present : Bool
  capacity : Nat
  head : Idx
  tail : Idx
  store : Memory
  deriving DecidableEq, Repr

/-- The state of unit F. -/
def State.unitF (s : State) : UnitF := ⟨s.present, s.capacity, s.head, s.tail, s.store⟩

end Sys2Proof.Machine
end

