-- ==== Sys2Proof/Machine/Ops.lean ====
section
/-! DEFINITION. The shared operations over the store and the registers of unit F: store accesses, the byte steps of WRITE and
READ, the burst loops, the lifecycle assignments, reset, and the response. There is no exception to take and none to return
from (60_exceptions R190, R194). -/

namespace Sys2Proof.Machine

open Sys2Proof

/-- Store `b` in slot `i`, keeping slots strictly rising. -/
def Memory.write : Memory → Nat → Byte → Memory
  | [], i, b => [(i, b)]
  | (a, c) :: m, i, b =>
    if i < a then (i, b) :: (a, c) :: m
    else if i = a then (i, b) :: m
    else (a, c) :: Memory.write m i b

/-- The slot exists: storage is present and the index is below `capacity` (20_memory R50, R54). -/
def State.hasSlot (s : State) (i : Nat) : Bool := s.present && decide (i < s.capacity)

/-- `MemWrite(i, 1, b)` (00_scope R14; 20_memory R52). -/
def memWrite (i : Nat) (b : Byte) (s : State) : Except Fault State :=
  if s.hasSlot i then .ok { s with store := s.store.write i b } else .error .noSuchSlot

/-- `MemRead(i, 1)` (00_scope R14; 20_memory R53), with the state after it: a slot nothing has written since the last INIT
yields a free byte (10_state R25; log 4), which uses up one draw. -/
def memRead (i : Nat) (s : State) : Except Fault (Byte × State) :=
  if s.hasSlot i then
    match s.store.read i with
    | some b => .ok (b, s)
    | none => .ok (Config.freeByte s.draws, { s with draws := s.draws + 1 })
  else .error .noSuchSlot

/-- Both indices to the sentinel: FLUSH, and the internal flush of READ (40_lifecycle R108, R109). -/
def State.flushed (s : State) : State := { s with head := none, tail := none }

/-- The Deinitialized state (40_lifecycle R104; 10_state INV3). -/
def State.absent (s : State) : State :=
  { s with present := false, capacity := 0, head := none, tail := none, store := [] }

/-- An Empty buffer of `c` slots that hold no value (40_lifecycle R100; 10_state R25). -/
def State.created (c : Nat) (s : State) : State :=
  { s with present := true, capacity := c, head := none, tail := none, store := [] }

/-- Reset (70_reset R220, R221): Deinitialized, no burst, no response for an operation that it cut off. Unit D has no reset.
The parameters, the host's later actions and the draw counter are no state of the block. -/
def resetBlock (s : State) : State :=
  { s.absent with burst := Burst.none, response := none }

/-- An operation of unit F ends with RSP value `v`, having taken `taken` from the write stream and delivered `out` on the
read stream (30_encoding R75, R79). -/
def State.respond (v : Nat) (taken out : List Byte) (s : State) : State :=
  { s with response := some ⟨v, taken, out⟩ }

/-- The write byte step `push1(b)` (42_transfer R140): `none` is REJECTED, `some t` is ACCEPTED with next state `t`. -/
def push1 (b : Byte) (s : State) : Except Fault (Option State) :=
  if s.full then .ok none
  else
    match memWrite (nextSlot s.capacity s.tail) b s with
    | .error f => .error f
    | .ok t =>
      .ok (some { t with
        tail := some (nextSlot s.capacity s.tail)
        head := if s.head = none then some 0 else s.head })

/-- The read byte step `pop1()` (42_transfer R150): `none` is NOTHING, `some (b, t)` is `BYTE(b)` with next state `t`. -/
def pop1 (s : State) : Except Fault (Option (Byte × State)) :=
  match s.head with
  | none => .ok none
  | some h =>
    match memRead h s with
    | .error f => .error f
    | .ok (b, t) =>
      .ok (some (b,
        if s.head = s.tail then t.flushed else { t with head := some (nextSlot s.capacity (some h)) }))

/-- The loop of WRITE (42_transfer R141): how many bytes of `data` were accepted, and the state after them. It stops at the
first rejection and never looks at the bytes after it. -/
def pushAll : List Byte → State → Except Fault (Nat × State)
  | [], s => .ok (0, s)
  | b :: bs, s =>
    match push1 b s with
    | .error f => .error f
    | .ok none => .ok (0, s)
    | .ok (some t) =>
      match pushAll bs t with
      | .error f => .error f
      | .ok (n, u) => .ok (n + 1, u)

/-- The loop of READ (42_transfer R151): the bytes delivered, oldest first, and the state after them. It stops when the
buffer is empty. -/
def popAll : Nat → State → Except Fault (List Byte × State)
  | 0, s => .ok ([], s)
  | n + 1, s =>
    match pop1 s with
    | .error f => .error f
    | .ok none => .ok ([], s)
    | .ok (some (b, t)) =>
      match popAll n t with
      | .error f => .error f
      | .ok (bs, u) => .ok (b :: bs, u)

/-- The refusal that answers a presented word which is no operation. -/
def Refusal.ofReject : Reject → Refusal
  | .wordTooWide => .wordTooWide
  | .reservedOpcode => .reservedOpcode
  | .dataLengthMismatch => .dataLengthMismatch

end Sys2Proof.Machine
end

