-- ==== Sys2Proof/Machine/Decoder.lean ====
section
/-! DEFINITION. The operation of unit D (43_decoder). -/

namespace Sys2Proof.Machine

open Sys2Proof

/-- DECODE (43_decoder R170, R174, R175): a pure function of its three bytes, defined on all of them; it reads and writes
nothing of unit F. -/
def execDecode (byteHigh byteMid byteLow : Byte) (s : State) : Out :=
  .next { s with decOut := some (decTriple byteHigh byteMid byteLow) }

end Sys2Proof.Machine
end

