-- ==== Sys2Proof/Machine/Lifecycle.lean ====
section
/-! DEFINITION. The lifecycle operations INIT, DEINIT, FLUSH (40_lifecycle). -/

namespace Sys2Proof.Machine

open Sys2Proof

/-- INIT (40_lifecycle R100 to R102): status 1 and Deinitialized when `c = 0` or `c > CAP_MAX`, else status 0 and an Empty
buffer of capacity `c`, from any state. -/
def execInit (c : Nat) (s : State) : Out :=
  if c = 0 ∨ s.cfg.capFits c = false then .next (s.absent.respond 1 [] [])
  else .next ((s.created c).respond 0 [] [])

/-- DEINIT (40_lifecycle R104, R105). -/
def execDeinit (s : State) : Out := .next (s.absent.respond 0 [] [])

/-- FLUSH (40_lifecycle R108): capacity and storage contents are not touched. -/
def execFlush (s : State) : Out := .next (s.flushed.respond 0 [] [])

end Sys2Proof.Machine
end

