-- ==== Sys2Proof/Machine/Status.lean ====
section
/-! DEFINITION. The status operations ISEMPTY, ISFULL (41_status), and the host's sampling of the status outputs
(30_encoding R88). -/

namespace Sys2Proof.Machine

open Sys2Proof

/-- ISEMPTY (41_status R121). -/
def execIsempty (s : State) : Out := .next (s.respond (boolRsp s.empty) [] [])

/-- ISFULL (41_status R122): never a fault; on a Deinitialized buffer the answer follows `ISFULL_ABSENT` (R124). -/
def execIsfull (s : State) : Out := .next (s.afterFull.respond (boolRsp s.full) [] [])

/-- The host samples `st_present`, `st_empty`, `st_full` (30_encoding R88; 70_reset R225). -/
def sampleStatus (s : State) : State := { s.afterFull with status := some s.statusOut }

end Sys2Proof.Machine
end

