-- ==== Sys2Proof/Machine/Transfer.lean ====
section
/-! DEFINITION. The transfer operations WRITE, READ (42_transfer). -/

namespace Sys2Proof.Machine

open Sys2Proof

/-- WRITE (42_transfer R141): the absent-storage guard first (60_exceptions R196), then the loop; the response is the
remainder (30_encoding R78). A request whose data is not `count` bytes is none (R79; 93 U12). -/
def execWrite (count : Nat) (data : List Byte) (s : State) : Out :=
  if data.length = count then
    if s.present then
      match pushAll data s with
      | .error f => .fault f
      | .ok (a, t) => .next (t.respond (count - a) (data.take a) [])
    else .next (s.respond count [] [])
  else .refused .dataLengthMismatch

/-- READ (42_transfer R151): the absent-storage guard first (60_exceptions R196), then the loop; the response is the
remainder and the bytes delivered (30_encoding R78, R79). -/
def execRead (count : Nat) (s : State) : Out :=
  if s.present then
    match popAll count s with
    | .error f => .fault f
    | .ok (bs, t) => .next (t.respond (count - bs.length) [] bs)
  else .next (s.respond count [] [])

end Sys2Proof.Machine
end

