-- ==== Sys2Proof/Machine/Dispatch.lean ====
section
/-! DEFINITION. One arm per operation of the opcode table. -/

namespace Sys2Proof.Machine

open Sys2Proof

/-- The meaning of every operation. -/
def exec (i : Instr) (s : State) : Host.Outcome State Fault Refusal :=
  match i with
  | .init c => Sys2Proof.Machine.execInit c s
  | .deinit => Sys2Proof.Machine.execDeinit s
  | .flush => Sys2Proof.Machine.execFlush s
  | .isempty => Sys2Proof.Machine.execIsempty s
  | .isfull => Sys2Proof.Machine.execIsfull s
  | .write count data => Sys2Proof.Machine.execWrite count data s
  | .read count => Sys2Proof.Machine.execRead count s
  | .decode byteHigh byteMid byteLow => Sys2Proof.Machine.execDecode byteHigh byteMid byteLow s

end Sys2Proof.Machine
end

