-- ==== Sys2Proof/Machine/Ports.lean ====
section
/-! DEFINITION. The signal-level binding of unit F (30_encoding R86 to R88; 10_state R36): the output pins as a function of
the state, and one rising edge of `clk`. It adds no behaviour (R90). The number of cycles an operation takes is open (R87;
70_reset R240): every edge carries a bit `advance` that says whether the block is ready to make progress in that cycle
(log 8). -/

namespace Sys2Proof.Machine

open Sys2Proof

/-- In a WRITE burst, another byte is wanted and the full check of `push1` lets it in (42_transfer R140, R141;
30_encoding R87). -/
def State.wantsByte (s : State) : Bool :=
  s.present && decide (s.burst.index < s.burst.count) && !s.full

/-- In a READ burst, another byte is wanted and there is one (42_transfer R150, R151). -/
def State.hasByte (s : State) : Bool :=
  s.present && decide (s.burst.index < s.burst.count) && !s.empty

/-- `wr_ready` (30_encoding R86, R87). -/
def wrReady (advance : Bool) (s : State) : Bool :=
  advance && s.burst.phase == .writing && s.wantsByte

/-- `rd_valid` (30_encoding R86, R87). -/
def rdValid (advance : Bool) (s : State) : Bool :=
  advance && s.burst.phase == .reading && s.hasByte

/-- `rd_data` (30_encoding R86): the byte the next `pop1` would deliver. -/
def rdData (s : State) : Except Fault (Option Byte) :=
  match pop1 s with
  | .error f => .error f
  | .ok none => .ok none
  | .ok (some (b, _)) => .ok (some b)

/-- The output pins of the cycle (30_encoding R86, R88). DESIGN CHOICE (log 15): they do not depend on the input pin `rst`, so
`cmd_ready`, `wr_ready`, `rd_valid` and `rsp_valid` keep their levels in a cycle with `rst` high. -/
def outputPins (advance : Bool) (s : State) : Except Fault PinsOut :=
  let rest (rd : Option Byte) : PinsOut :=
    { cmdReady := s.burst.phase == .idle
      wrReady := wrReady advance s
      rd := rd
      rsp := if s.burst.phase = .responding then s.response.map (·.value) else none
      status := s.statusOut }
  if rdValid advance s then
    match rdData s with
    | .error f => .error f
    | .ok rd => .ok (rest rd)
  else .ok (rest none)

/-- The burst bookkeeping of an operation whose response is on `rsp` (30_encoding R87). -/
def Burst.answer : Burst := ⟨.responding, 0, 0, []⟩

/-- The edge on which a command is taken (30_encoding R87). WRITE and READ latch their count and start at byte 0
(10_state R36); the data of a WRITE comes later, on the write stream (R79). -/
def acceptCommand (word : Nat) (s : State) : Out :=
  if s.cfg.argFits (cmdArg word) then
    match Op.ofCode (cmdOp word) with
    | none => .refused .reservedOpcode
    | some .write => .next { s with burst := ⟨.writing, 0, cmdArg word, []⟩ }
    | some .read => .next { s with burst := ⟨.reading, 0, cmdArg word, []⟩ }
    | some .init => .next { s with burst := ⟨.command (.init (cmdArg word)), 0, 0, []⟩ }
    | some .deinit => .next { s with burst := ⟨.command .deinit, 0, 0, []⟩ }
    | some .flush => .next { s with burst := ⟨.command .flush, 0, 0, []⟩ }
    | some .isempty => .next { s with burst := ⟨.command .isempty, 0, 0, []⟩ }
    | some .isfull => .next { s with burst := ⟨.command .isfull, 0, 0, []⟩ }
  else .refused .wordTooWide

/-- A latched command is performed, and `rsp_valid` rises (30_encoding R87). -/
def performCommand (i : Instr) (s : State) : Out :=
  match exec i s with
  | .next t => .next { t with burst := Burst.answer }
  | .fault f => .fault f
  | .refused r => .refused r

/-- A WRITE burst in one cycle: a byte is taken where `wr_valid && wr_ready`; when no further byte is wanted or the full
check fails, `rsp_valid` rises with the remainder (30_encoding R87; 42_transfer R141). -/
def writeCycle (p : PinsIn) (advance : Bool) (s : State) : Out :=
  if s.wantsByte then
    if advance && p.wrValid then
      match push1 p.wrData s with
      | .error f => .fault f
      | .ok none => .next s
      | .ok (some t) =>
        .next { t with
          burst := ⟨.writing, s.burst.index + 1, s.burst.count, s.burst.stream ++ [p.wrData]⟩ }
    else .next s
  else if advance then
    .next { s.respond (s.burst.count - s.burst.index) s.burst.stream [] with burst := Burst.answer }
  else .next s

/-- A READ burst in one cycle: a byte goes out where `rd_valid && rd_ready`; when no further byte is wanted or there is none,
`rsp_valid` rises with the remainder (30_encoding R87; 42_transfer R151). -/
def readCycle (p : PinsIn) (advance : Bool) (s : State) : Out :=
  if s.hasByte then
    if advance && p.rdReady then
      match pop1 s with
      | .error f => .fault f
      | .ok none => .next s
      | .ok (some (b, t)) =>
        .next { t with burst := ⟨.reading, s.burst.index + 1, s.burst.count, s.burst.stream ++ [b]⟩ }
    else .next s
  else if advance then
    .next { s.respond (s.burst.count - s.burst.index) [] s.burst.stream with burst := Burst.answer }
  else .next s

/-- What an edge does when `rst` is low, by phase (30_encoding R87). A command is looked at only while `cmd_ready` is high
(70_reset R231); `rsp_valid` is high for one cycle. -/
def portCycle (p : PinsIn) (advance : Bool) (s : State) : Out :=
  match s.burst.phase with
  | .idle => if p.cmdValid then acceptCommand p.cmd s else .next s
  | .command i => if advance then performCommand i s else .next s
  | .writing => writeCycle p advance s
  | .reading => readCycle p advance s
  | .responding => .next { s with burst := Burst.none }

/-- One rising edge of `clk` (30_encoding R86): the host has the output pins of the cycle, and reset wins (70_reset R220,
R221). On an edge with `rst` high no command is taken even where `cmd_ready` is high (log 15). -/
def clockEdge (p : PinsIn) (advance : Bool) (s : State) : Out :=
  match outputPins advance s with
  | .error f => .fault f
  | .ok o =>
    if p.rst then .next (resetBlock { s.afterFull with pins := some o })
    else portCycle p advance { s.afterFull with pins := some o }

end Sys2Proof.Machine
end

