-- ==== Sys2Proof/Machine/Requests.lean ====
section
/-! DEFINITION. The service of one action of the host (70_reset R225), and where the next one is taken from. -/

namespace Sys2Proof.Machine

open Sys2Proof

/-- The host's next action, and the state without it. -/
def nextRequest (s : State) : Option (Request × State) :=
  match s.pending with
  | [] => none
  | r :: rest => some (r, { s with pending := rest })

/-- Decode what is presented, and perform it. -/
def runPresented (p : Presented) (s : State) : Out :=
  match decode s.cfg p with
  | .ok i => exec i s
  | .error e => .refused (Refusal.ofReject e)

/-- A transaction. A command presented while an operation is in progress at the ports is not taken and has no effect
(70_reset R231; 93 U13); unit D may be used at any time (43_decoder R175). -/
def serveOp (p : Presented) (s : State) : Out :=
  match p with
  | .dec word => runPresented (.dec word) s
  | .cmd word data => if s.burst.busy then .next s else runPresented (.cmd word data) s

/-- One action of the host. -/
def serve (r : Request) (s : State) : Out :=
  match r with
  | .op p => serveOp p s
  | .reset => .next (resetBlock s)
  | .sample => .next (sampleStatus s)
  | .edge p advance => clockEdge p advance s

/-- One step: the host's next action is served; when the host issues no more, nothing happens and the block does not halt
(70_reset R224). -/
def serveNext (s : State) : Out :=
  match nextRequest s with
  | none => .next s
  | some (r, t) => serve r t

/-- The host presents `p` as its very next action, at an idle command port (log 7). -/
def presentFirst (p : Presented) (s : State) : State :=
  { s with pending := .op p :: s.pending, burst := Burst.none }

end Sys2Proof.Machine
end

