-- ==== Sys2Proof/Machine/Step.lean ====
section
/-! DEFINITION. One step of the machine: one action of the host. -/

namespace Sys2Proof.Machine

open Sys2Proof

/-- One step. -/
def step (s : State) : Host.Outcome State Fault Refusal := serveNext s

/-- `s` with a table row's word presented as the host's very next action (log 7). -/
def State.withFetchWord (s : State) (nbits w : Nat) : State := presentFirst (presentTableWord nbits w) s

end Sys2Proof.Machine
end

