-- ==== Sys2Proof/Safety.lean ====
section
/-! DEFINITION. The invariant of reachable states (10_state R26, R28, R36), what a safe run is, and the runs that statements
speak of: a list of operations, and the clock edges of one operation at the ports. -/

namespace Sys2Proof.Machine

open Sys2Proof

/-- The well-formedness of unit F: 10_state R26 (INV1 with INV2, INV3, INV4, INV5), the `W`-bit width of `capacity` (R22),
the canonical form and the extent of the store (R25), and the written window (R28). -/
structure UnitFInv (s : State) : Prop where
  /-- INV1, INV2. -/
  indices : (s.head = none ∧ s.tail = none) ∨
    ∃ h t, s.head = some h ∧ s.tail = some t ∧ h < s.capacity ∧ t < s.capacity
  /-- INV3. -/
  absent : s.present = false → s.capacity = 0 ∧ s.head = none ∧ s.tail = none
  /-- INV4. -/
  capacity : s.present = true → 1 ≤ s.capacity ∧ s.cfg.capFits s.capacity = true
  capacityWidth : s.cfg.argFits s.capacity = true
  /-- INV5. -/
  occupancy : s.occ ≤ s.usable
  storeForm : s.store.wf
  storeExtent : ∀ c ∈ s.store, c.1 < s.capacity
  /-- R28. -/
  window : ∀ h, s.head = some h → ∀ j, j < s.occ → (s.store.read (ringSlot s.capacity h j)).isSome = true

/-- The five commands without a stream (30_encoding R75, R79). -/
def Instr.streamless : Instr → Bool
  | .init _ => true
  | .deinit => true
  | .flush => true
  | .isempty => true
  | .isfull => true
  | .write _ _ => false
  | .read _ => false
  | .decode _ _ _ => false

/-- The burst bookkeeping exists only between the acceptance of a WRITE or READ and its response, and `i <= count`
(10_state R36). -/
def State.burstOk (s : State) : Bool :=
  match s.burst.phase with
  | .idle => s.burst == Burst.none
  | .responding => s.burst == Burst.answer && s.response.isSome
  | .command i => s.burst == ⟨.command i, 0, 0, []⟩ && Instr.streamless i && WellFormed s.cfg i
  | .writing =>
    decide (s.burst.index ≤ s.burst.count) && s.burst.stream.length == s.burst.index && s.cfg.argFits s.burst.count
  | .reading =>
    decide (s.burst.index ≤ s.burst.count) && s.burst.stream.length == s.burst.index && s.cfg.argFits s.burst.count

/-- An RSP value is a `W`-bit value (30_encoding R75). -/
def State.responseOk (s : State) : Bool :=
  match s.response with
  | none => true
  | some r => s.cfg.argFits r.value

/-- The invariant of the whole machine, under legal parameters (00_scope R7). -/
structure Inv (s : State) : Prop where
  cfgWf : s.cfg.wf = true
  unitF : UnitFInv s
  burst : s.burstOk = true
  response : s.responseOk = true

/-- A safe run: however many steps are taken from `s`, none of them faults (60_exceptions R190). -/
def SafeFrom (s : State) : Prop := ∀ n f, Host.Core.run Sys2Proof.core n s ≠ .fault f

/-- Operations performed one after another (20_memory R62): what each operation of unit F returned, in order, and the last
state; `none` if one of them does not end in a next state. -/
def runOps : List Instr → State → Option (List Response × State)
  | [], s => some ([], s)
  | i :: is, s =>
    match exec i { s with response := none } with
    | .next t =>
      match runOps is t with
      | some (rs, u) => some (t.response.toList ++ rs, u)
      | none => none
    | .fault _ => none
    | .refused _ => none

/-- The byte that crosses the write stream on an edge: taken where `wr_valid && wr_ready` (30_encoding R87). -/
def edgeTaken (p : PinsIn) (advance : Bool) (s : State) : List Byte :=
  if wrReady advance s && p.wrValid then [p.wrData] else []

/-- The byte that crosses the read stream on an edge: handed over where `rd_valid && rd_ready` (30_encoding R87). -/
def edgeOut (p : PinsIn) (advance : Bool) (s : State) : List Byte :=
  match outputPins advance s with
  | .ok o => if p.rdReady then o.rd.toList else []
  | .error _ => []

/-- The clock edges from a state of an operation in progress until `rsp_valid` is high: the bytes the host saw cross the write
stream and the read stream, in order, and the state in which `rsp_valid` is high; `none` if the edges end before that. -/
def runUntilResponse : List (PinsIn × Bool) → State → Option (List Byte × List Byte × State)
  | [], s => if s.burst.phase = .responding then some ([], [], s) else none
  | (p, advance) :: es, s =>
    if s.burst.phase = .responding then some ([], [], s)
    else
      match clockEdge p advance s with
      | .next t =>
        match runUntilResponse es t with
        | some (taken, out, u) => some (edgeTaken p advance s ++ taken, edgeOut p advance s ++ out, u)
        | none => none
      | .fault _ => none
      | .refused _ => none

/-- The operations that neither create, destroy nor flush the buffer (42_transfer R157). -/
def Instr.keepsBuffer : Instr → Bool
  | .init _ => false
  | .deinit => false
  | .flush => false
  | .isempty => true
  | .isfull => true
  | .write _ _ => true
  | .read _ => true
  | .decode _ _ _ => true

/-- The sum of the remainders of several responses (42_transfer R145, R155). -/
def remainderSum (rs : List Response) : Nat := (rs.map (·.value)).sum

/-- The bytes delivered by several responses, in order. -/
def deliveredBytes (rs : List Response) : List Byte := (rs.map (·.out)).flatten

/-- The bytes taken by several responses, in order. -/
def takenBytes (rs : List Response) : List Byte := (rs.map (·.taken)).flatten

end Sys2Proof.Machine
end

