-- ==== Sys2Proof/Certificates/Slice0/Obligations.lean ====
section
/-! DEFINITION. The statements for the provers, from the numbered rules of the spec. -/

open Sys2Proof Sys2Proof.Machine

/-! ## Encoding (30_encoding) -/

/-- Decoding what a host presents for a well-formed operation gives the operation back, under any parameters. -/
def Obligations.DecodeOfEncode : Prop :=
  ∀ (cfg : Config) (i : Instr), WellFormed cfg i = true → decode cfg (encode i) = .ok i

/-- The decoder gives well-formed operations only. -/
def Obligations.DecodeGivesWellFormed : Prop :=
  ∀ (cfg : Config) (p : Presented) (i : Instr), decode cfg p = .ok i → WellFormed cfg i = true

/-- R72, R73: the operation of every command word with a `W`-bit argument, the ignored arguments among them; an assembler
writes 0 where the argument is ignored. R74, R79: code 7 and a WRITE of another length are rejected. That write-stream bytes
beside a command other than WRITE are ignored is the model's inference (log 11, DEDUCED). -/
def Obligations.CommandWordOperations : Prop :=
  ∀ (cfg : Config) (a : Nat) (data : List Byte), cfg.argFits a = true →
    decode cfg (.cmd (a * 8 + 0) data) = .ok (.init a) ∧
    decode cfg (.cmd (a * 8 + 1) data) = .ok .deinit ∧
    decode cfg (.cmd (a * 8 + 2) data) = .ok .flush ∧
    decode cfg (.cmd (a * 8 + 3) data) = .ok .isempty ∧
    decode cfg (.cmd (a * 8 + 4) data) = .ok .isfull ∧
    (data.length = a → decode cfg (.cmd (a * 8 + 5) data) = .ok (.write a data)) ∧
    (data.length ≠ a → decode cfg (.cmd (a * 8 + 5) data) = .error .dataLengthMismatch) ∧
    decode cfg (.cmd (a * 8 + 6) data) = .ok (.read a) ∧
    decode cfg (.cmd (a * 8 + 7) data) = .error .reservedOpcode ∧
    encode .deinit = .cmd (0 * 8 + 1) [] ∧ encode .flush = .cmd (0 * 8 + 2) [] ∧
    encode .isempty = .cmd (0 * 8 + 3) [] ∧ encode .isfull = .cmd (0 * 8 + 4) []

/-- R74: the reserved operation code is refused, as a transaction and at the ports; every operand word of unit D is legal. -/
def Obligations.ReservedOpcodeRefused : Prop :=
  ∀ (s : State) (a : Nat) (data : List Byte) (rest : List Request) (p : PinsIn) (advance : Bool),
    UnitFInv s → s.burst.phase = .idle → s.cfg.argFits a = true →
    (s.pending = .op (.cmd (a * 8 + 7) data) :: rest → step s = .refused .reservedOpcode) ∧
    (s.pending = .edge p advance :: rest → p.rst = false → p.cmdValid = true → p.cmd = a * 8 + 7 →
      step s = .refused .reservedOpcode) ∧
    (∀ word : DecIn, ∃ i t, decode s.cfg (.dec word) = .ok i ∧ exec i s = .next t)

/-- R94: the worked encodings, `W = 16`. -/
def Obligations.WorkedEncodings : Prop :=
  encode (.init 4) = .cmd 0x00020 [] ∧ encode .deinit = .cmd 0x00001 [] ∧ encode .flush = .cmd 0x00002 [] ∧
  encode .isempty = .cmd 0x00003 [] ∧ encode .isfull = .cmd 0x00004 [] ∧
  encode (.write 3 [10, 20, 30]) = .cmd 0x0001D [10, 20, 30] ∧ encode (.read 2) = .cmd 0x00016 [] ∧
  encode (.decode 0x31 0x32 0x33) = .dec 0x313233 ∧ decTriple 0x31 0x32 0x33 = 0x00001083 ∧
  decode Config.suggested (.cmd 0x00020 []) = .ok (.init 4) ∧ decode Config.suggested (.cmd 0x00001 []) = .ok .deinit ∧
  decode Config.suggested (.cmd 0x00002 []) = .ok .flush ∧ decode Config.suggested (.cmd 0x00003 []) = .ok .isempty ∧
  decode Config.suggested (.cmd 0x00004 []) = .ok .isfull ∧
  decode Config.suggested (.cmd 0x0001D [10, 20, 30]) = .ok (.write 3 [10, 20, 30]) ∧
  decode Config.suggested (.cmd 0x00016 []) = .ok (.read 2) ∧
  decode Config.suggested (.dec 0x313233) = .ok (.decode 0x31 0x32 0x33)

/-- R82, R74: every 24-bit operand word is a DECODE, its bytes at bits 23:16, 15:8 and 7:0. -/
def Obligations.EveryOperandWordDecodes : Prop :=
  ∀ (cfg : Config) (word : DecIn), ∃ h m l : Byte,
    decode cfg (.dec word) = .ok (.decode h m l) ∧
    h.toNat = word.toNat / 65536 ∧ m.toNat = word.toNat / 256 % 256 ∧ l.toNat = word.toNat % 256

/-! ## The step -/

/-- A step performs the decoded operation, on the state without the served action: a command at an idle port, an operand word
of unit D at any time. The list of the host's actions is the model's own (log 2). -/
def Obligations.StepRunsDecodedOperation : Prop :=
  ∀ (s : State) (p : Presented) (rest : List Request) (i : Instr),
    s.pending = .op p :: rest → decode s.cfg p = .ok i → (s.burst.phase = .idle ∨ ∃ w, p = .dec w) →
    step s = exec i { s with pending := rest }

/-- R10: every well-formed operation completes in one next state, which meets the invariant of unit F. -/
def Obligations.EveryOperationCompletes : Prop :=
  ∀ (s : State) (i : Instr), UnitFInv s → WellFormed s.cfg i = true → ∃ t, exec i s = .next t ∧ UnitFInv t

/-- A step from a state that meets the invariant answers a next state, unless the host presents at an idle command port a word
that is no operation. -/
def Obligations.StepCompletes : Prop :=
  ∀ s : State, Inv s →
    (∀ p rest, s.pending = .op p :: rest → ∃ i, decode s.cfg p = .ok i) →
    (∀ p advance rest, s.pending = .edge p advance :: rest → p.cmdValid = true →
      s.cfg.argFits (cmdArg p.cmd) = true ∧ cmdOp p.cmd ≠ 7) →
    ∃ t, step s = .next t

/-- The invariant of the whole machine is kept by every step, whatever the host does. -/
def Obligations.StepKeepsInvariant : Prop :=
  ∀ s t : State, Inv s → step s = .next t → Inv t

/-- R26: the state right after reset meets the invariant, under the parameters it holds and under all legal ones. -/
def Obligations.ResetMeetsInvariant : Prop :=
  Inv State.reset ∧ ∀ cfg : Config, cfg.wf = true → Inv { State.reset with cfg := cfg }

/-- R190, R54: from a state that meets the invariant no run faults. The fault is the model's (log 5). -/
def Obligations.NoRunFaults : Prop := ∀ s : State, Inv s → SafeFrom s

/-- No step changes the parameters, and no step takes a drawn free value back.
The parameters as a field of State are log 1, the counter of draws is log 3. -/
def Obligations.StepKeepsParameters : Prop :=
  ∀ s t : State, step s = .next t → t.cfg = s.cfg ∧ s.draws ≤ t.draws

/-- An operation touches nothing of the host interface but its response: the frame that all operations share. Those of unit F
leave DEC_OUT alone; DECODE leaves unit F, its response and the draw counter alone; the queries leave unit F alone.
The fields of the host interface and the counter of draws are the model's own (log 2, log 3). -/
def Obligations.OperationFrame : Prop :=
  ∀ (i : Instr) (s t : State), exec i s = .next t →
    t.cfg = s.cfg ∧ t.burst = s.burst ∧ t.pending = s.pending ∧ t.status = s.status ∧ t.pins = s.pins ∧
    ((∀ h m l, i ≠ .decode h m l) → t.decOut = s.decOut) ∧
    ((∃ h m l, i = .decode h m l) → t.unitF = s.unitF ∧ t.response = s.response ∧ t.draws = s.draws) ∧
    (i = .isempty ∨ i = .isfull → t.unitF = s.unitF) ∧
    ((∃ n, i = .read n) → t.store = s.store ∧ t.capacity = s.capacity ∧ t.present = s.present) ∧
    ((∃ n d, i = .write n d) → t.capacity = s.capacity ∧ t.present = s.present ∧ t.draws = s.draws) ∧
    (i = .flush → t.store = s.store ∧ t.capacity = s.capacity ∧ t.present = s.present)

/-! ## Reset (10_state R37, 70_reset R220, R221) -/

/-- R37: what reset leaves, whatever the parameters. With `ANY` full is the free bit that the counter of draws selects, and
the counter is the model's own (log 3). -/
def Obligations.ResetLeavesDeinitialized : Prop :=
  State.reset.present = false ∧ State.reset.capacity = 0 ∧ State.reset.head = none ∧ State.reset.tail = none ∧
  (∀ i, State.reset.store.read i = none) ∧ State.reset.burst.index = 0 ∧ State.reset.burst.count = 0 ∧
  State.reset.burst.busy = false ∧ State.reset.empty = true ∧ State.reset.classify = .deinitialized ∧
  (∀ cfg : Config, ({ State.reset with cfg := cfg } : State).full =
    match cfg.isfullAbsent with
    | .any => Config.freeBit State.reset.draws
    | .isTrue => true
    | .isFalse => false)

/-- R220, R221: reset as an action of the host, and as an edge with `rst` high, from any state and in the middle of a burst.
Unit F is left as DEINIT leaves it; unit D has no reset. The fields of the host interface are the model's own, and that reset
sets the response to none in every state, while the last DEC_OUT and the later actions are kept, is its choice (log 2). -/
def Obligations.ResetWinsFromAnyState : Prop :=
  (∀ (s : State) (rest : List Request), s.pending = .reset :: rest →
    ∃ t, step s = .next t ∧ t.unitF = State.reset.unitF ∧ t.burst = State.reset.burst ∧ t.response = none ∧
      t.cfg = s.cfg ∧ t.decOut = s.decOut ∧ t.pending = rest ∧
      ∃ u, exec .deinit s = .next u ∧ u.unitF = t.unitF) ∧
  (∀ (s : State) (p : PinsIn) (advance : Bool) (rest : List Request), UnitFInv s →
    s.pending = .edge p advance :: rest → p.rst = true →
    ∃ t, step s = .next t ∧ t.unitF = State.reset.unitF ∧ t.burst = State.reset.burst ∧ t.response = none ∧
      t.cfg = s.cfg ∧ t.decOut = s.decOut ∧ t.pending = rest ∧
      ∃ u, exec .deinit s = .next u ∧ u.unitF = t.unitF)

/-! ## Lifecycle (40_lifecycle) -/

/-- R100, R101, R102: INIT from any state, its status, its state and its flags. -/
def Obligations.InitResult : Prop :=
  ∀ (s : State) (c : Nat),
    (1 ≤ c → s.cfg.capFits c = true →
      ∃ t, exec (.init c) s = .next t ∧
        t = { s with
          present := true, capacity := c, head := none, tail := none, store := [], response := some ⟨0, [], []⟩ } ∧
        t.empty = true ∧ (s.cfg.fullPolicy = .tailNextEqHead → t.full = false) ∧
        (s.cfg.fullPolicy = .oneSlotWasted → (t.full = true ↔ c = 1))) ∧
    (c = 0 ∨ s.cfg.capFits c = false →
      exec (.init c) s = .next { s with
        present := false, capacity := 0, head := none, tail := none, store := [], response := some ⟨1, [], []⟩ })

/-- R104, R105: DEINIT from any state; on a Deinitialized buffer it changes nothing; after it WRITE and READ return the whole
count. -/
def Obligations.DeinitResult : Prop :=
  ∀ s : State, ∃ t, exec .deinit s = .next t ∧
    t = { s with
      present := false, capacity := 0, head := none, tail := none, store := [], response := some ⟨0, [], []⟩ } ∧
    (UnitFInv s → s.present = false → t.unitF = s.unitF) ∧
    (∀ data : List Byte, exec (.write data.length data) t = .next { t with response := some ⟨data.length, [], []⟩ }) ∧
    (∀ n, exec (.read n) t = .next { t with response := some ⟨n, [], []⟩ })

/-- R108: FLUSH sets both indices to NONE and touches neither the capacity nor the store; the flushed bytes cannot be read. -/
def Obligations.FlushResult : Prop :=
  ∀ s : State, ∃ t, exec .flush s = .next t ∧
    t = { s with head := none, tail := none, response := some ⟨0, [], []⟩ } ∧ t.empty = true ∧
    (s.present = true → s.cfg.fullPolicy = .tailNextEqHead → t.full = false) ∧
    (s.present = true → s.cfg.fullPolicy = .oneSlotWasted → (t.full = true ↔ s.capacity = 1)) ∧
    (UnitFInv s → s.present = false → t.unitF = s.unitF) ∧
    (∀ n, exec (.read n) t = .next { t with response := some ⟨n, [], []⟩ })

/-- R57: a second FLUSH, DEINIT or INIT of the same capacity changes nothing of unit F and gets the same response; ISEMPTY,
ISFULL and DECODE change nothing of unit F. -/
def Obligations.RepeatedOperations : Prop :=
  ∀ (s : State) (c : Nat),
    (∀ i : Instr, i = .flush ∨ i = .deinit ∨ i = .init c →
      ∃ t u, exec i s = .next t ∧ exec i t = .next u ∧ u.unitF = t.unitF ∧ u.response = t.response) ∧
    (∀ i : Instr, i = .isempty ∨ i = .isfull ∨ (∃ h m l, i = .decode h m l) →
      ∃ t, exec i s = .next t ∧ t.unitF = s.unitF)

/-! ## Status (41_status) -/

/-- R120, R121: ISEMPTY, true in the states Deinitialized and Empty and in no other. -/
def Obligations.IsemptyResult : Prop :=
  ∀ s : State,
    exec .isempty s = .next { s with response := some ⟨if s.head = none then 1 else 0, [], []⟩ } ∧
    (UnitFInv s → (s.head = none ↔ s.tail = none) ∧
      (s.head = none ↔ s.classify = .deinitialized ∨ s.classify = .empty))

/-- R122 to R125: ISFULL on an initialized buffer under both policies, and on a Deinitialized one. With `ANY` the answer there is
the next free bit: that the bit is counted by `draws`, and that the counter goes up by one, is the model's choice (log 3). -/
def Obligations.IsfullResult : Prop :=
  ∀ s : State, ∃ (b : Bool) (d : Nat),
    exec .isfull s = .next { s with response := some ⟨if b then 1 else 0, [], []⟩, draws := d } ∧
    (s.present = true → s.cfg.fullPolicy = .tailNextEqHead →
      d = s.draws ∧ (b = true ↔ ∃ h, s.head = some h ∧ nextSlot s.capacity s.tail = h)) ∧
    (s.present = true → s.cfg.fullPolicy = .oneSlotWasted →
      d = s.draws ∧ (b = true ↔ (s.occ : Int) = (s.capacity : Int) - 1)) ∧
    (s.present = false → s.cfg.isfullAbsent = .isTrue → b = true ∧ d = s.draws) ∧
    (s.present = false → s.cfg.isfullAbsent = .isFalse → b = false ∧ d = s.draws) ∧
    (s.present = false → s.cfg.isfullAbsent = .any → b = Config.freeBit s.draws ∧ d = s.draws + 1)

/-- R127, R125: full by occupancy, and the index form of the alternative policy. -/
def Obligations.FullByOccupancy : Prop :=
  ∀ s : State, UnitFInv s → s.present = true →
    (s.full = true ↔ s.occ = s.usable) ∧
    (s.cfg.fullPolicy = .tailNextEqHead → (s.full = true ↔ s.occ = s.capacity)) ∧
    (s.cfg.fullPolicy = .oneSlotWasted →
      (s.full = true ↔ (s.occ : Int) = (s.capacity : Int) - 1) ∧
      (s.full = true ↔ s.capacity - 1 ≤ s.occ) ∧
      (s.head = none → (s.full = true ↔ s.capacity = 1)) ∧
      (∀ h t, s.head = some h → s.tail = some t → (s.full = true ↔ (t + 2) % s.capacity = h)))

/-- R27: the occupancy is the distance from head to tail inclusive along the ring. -/
def Obligations.OccupancyFormula : Prop :=
  ∀ s : State, UnitFInv s →
    (s.head = none → s.occ = 0) ∧
    (∀ h t, s.head = some h → s.tail = some t →
      (s.occ : Int) = ((t : Int) - (h : Int)) % (s.capacity : Int) + 1 ∧ 1 ≤ s.occ ∧ s.occ ≤ s.capacity)

/-! ## Transfer (42_transfer) -/

/-- R140: a WRITE of one byte is the write byte step: rejected when full, else stored behind the tail. -/
def Obligations.WriteByteStep : Prop :=
  ∀ (s : State) (b : Byte), UnitFInv s → s.present = true →
    (s.full = true → exec (.write 1 [b]) s = .next { s with response := some ⟨1, [], []⟩ }) ∧
    (s.full = false → ∃ t, exec (.write 1 [b]) s = .next t ∧
      t.head = (if s.head = none then some 0 else s.head) ∧
      t.tail = some (match s.tail with
        | none => 0
        | some k => if k = s.capacity - 1 then 0 else k + 1) ∧
      (∀ k, t.tail = some k → t.store.read k = some b ∧ ∀ x, x ≠ k → t.store.read x = s.store.read x) ∧
      t = { s with head := t.head, tail := t.tail, store := t.store, response := some ⟨0, [b], []⟩ })

/-- R142, R143: what a WRITE accepts, its remainder, and the contents after it, on an initialized buffer and on a Deinitialized
one (where `usable` is 0). -/
def Obligations.WriteResult : Prop :=
  ∀ (s : State) (count : Nat) (data : List Byte), UnitFInv s → data.length = count →
    ∃ t, exec (.write count data) s = .next t ∧
      t.response = some ⟨count - min count (s.usable - s.occ), data.take (min count (s.usable - s.occ)), []⟩ ∧
      t.contents = s.contents ++ data.take (min count (s.usable - s.occ)) ∧
      t.occ = s.occ + min count (s.usable - s.occ) ∧ t.usable = s.usable ∧
      (1 ≤ min count (s.usable - s.occ) → t.empty = false) ∧
      (s.present = true → (t.full = true ↔ t.occ = t.usable))

/-- R143: which slots a WRITE stores to, what it leaves alone, and the contents after it. The j-th accepted byte goes to
slot `j` of an empty buffer, else to slot `(tail + 1 + j) mod capacity`. -/
def Obligations.WriteEffect : Prop :=
  ∀ (s t : State) (count : Nat) (data : List Byte) (a : Nat), UnitFInv s → data.length = count →
    a = min count (s.usable - s.occ) → exec (.write count data) s = .next t →
    t = { s with head := t.head, tail := t.tail, store := t.store, response := t.response } ∧
    (a = 0 → t.unitF = s.unitF) ∧
    (1 ≤ a → s.head = none → t.head = some 0 ∧ t.tail = some (a - 1) ∧ (∀ j, j < a → t.store.read j = data[j]?) ∧
      (∀ x, a ≤ x → t.store.read x = s.store.read x)) ∧
    (1 ≤ a → ∀ h k, s.head = some h → s.tail = some k →
      t.head = some h ∧ t.tail = some ((k + a) % s.capacity) ∧
      (∀ j, j < a → t.store.read ((k + 1 + j) % s.capacity) = data[j]?) ∧
      (∀ x, (∀ j, j < a → x ≠ (k + 1 + j) % s.capacity) → t.store.read x = s.store.read x)) ∧
    t.contents = s.contents ++ data.take a ∧ t.occ = s.occ + a

/-- R150: a READ of one byte is the read byte step: nothing from an empty buffer, else the byte in slot `head`, and a flush
when it was the last. -/
def Obligations.ReadByteStep : Prop :=
  ∀ s : State, UnitFInv s → s.present = true →
    (s.head = none → exec (.read 1) s = .next { s with response := some ⟨1, [], []⟩ }) ∧
    (∀ h, s.head = some h → ∃ b, s.store.read h = some b ∧ (s.tail = some h ↔ s.occ = 1) ∧
      (s.tail = some h →
        exec (.read 1) s = .next { s with head := none, tail := none, response := some ⟨0, [], [b]⟩ }) ∧
      (s.tail ≠ some h →
        exec (.read 1) s = .next { s with
          head := some (if h = s.capacity - 1 then 0 else h + 1), response := some ⟨0, [], [b]⟩ }))

/-- R152, R153: what a READ delivers, its remainder and the state after it, on an initialized buffer and on a Deinitialized one
(where `occ` is 0). Nothing is stored. -/
def Obligations.ReadResult : Prop :=
  ∀ (s : State) (count : Nat), UnitFInv s →
    ∃ t, exec (.read count) s = .next t ∧
      t.response = some ⟨count - min count s.occ, [], s.contents.take (min count s.occ)⟩ ∧
      (∀ h, s.head = some h → ∀ j, j < min count s.occ →
        (s.contents.take (min count s.occ))[j]? = s.store.read ((h + j) % s.capacity)) ∧
      (min count s.occ = 0 → t.head = s.head ∧ t.tail = s.tail) ∧
      (∀ h, s.head = some h → 0 < min count s.occ → min count s.occ < s.occ →
        t.head = some ((h + min count s.occ) % s.capacity) ∧ t.tail = s.tail) ∧
      (min count s.occ = s.occ → t.head = none ∧ t.tail = none) ∧
      t = { s with head := t.head, tail := t.tail, response := t.response } ∧
      t.contents = s.contents.drop (min count s.occ) ∧ t.occ = s.occ - min count s.occ

/-- R145: a WRITE leaves the same state, takes the same bytes and returns the same number as single-byte WRITEs of its bytes. -/
def Obligations.WriteAsSingleWrites : Prop :=
  ∀ (s : State) (data : List Byte), UnitFInv s → s.present = true →
    ∃ t r rs u, exec (.write data.length data) s = .next t ∧ t.response = some r ∧
      runOps (data.map Instr.push) s = some (rs, u) ∧ u.unitF = t.unitF ∧ remainderSum rs = r.value ∧
      takenBytes rs = r.taken

/-- R155: a READ leaves the same state, delivers the same bytes and returns the same number as single-byte READs. -/
def Obligations.ReadAsSingleReads : Prop :=
  ∀ (s : State) (count : Nat), UnitFInv s → s.present = true →
    ∃ t r rs u, exec (.read count) s = .next t ∧ t.response = some r ∧
      runOps (List.replicate count Instr.pop) s = some (rs, u) ∧ u.unitF = t.unitF ∧ remainderSum rs = r.value ∧
      deliveredBytes rs = r.out

/-- R156: on an empty buffer, data that fits comes back whole and in order, and the buffer is Empty again. -/
def Obligations.WriteThenReadRoundTrip : Prop :=
  ∀ (s : State) (data : List Byte), UnitFInv s → s.present = true → s.head = none → data.length ≤ s.usable →
    ∃ t u, exec (.write data.length data) s = .next t ∧ t.response = some ⟨0, data, []⟩ ∧
      exec (.read data.length) t = .next u ∧ u.response = some ⟨0, [], data⟩ ∧ u.classify = .empty

/-- R156, R157: over any operations but INIT, DEINIT and FLUSH, what was held and what is taken is, in order, what is delivered
and what is held at the end; the occupancy is the difference and never exceeds the usable capacity. -/
def Obligations.FifoOrderAndConservation : Prop :=
  ∀ (is : List Instr) (s : State), UnitFInv s → (∀ i ∈ is, Instr.keepsBuffer i = true ∧ WellFormed s.cfg i = true) →
    ∃ rs t, runOps is s = some (rs, t) ∧ UnitFInv t ∧
      s.contents ++ takenBytes rs = deliveredBytes rs ++ t.contents ∧
      s.occ + (takenBytes rs).length = (deliveredBytes rs).length + t.occ ∧
      t.occ ≤ t.usable ∧ t.usable = s.usable ∧ t.capacity = s.capacity

/-- R146: however the buffer became empty, by a READ of all it held or by FLUSH, the next accepted byte goes to slot 0 and the
head is slot 0. -/
def Obligations.RestartAtSlotZero : Prop :=
  ∀ (s : State) (count : Nat) (b : Byte), UnitFInv s → s.present = true → 1 ≤ s.usable → s.occ ≤ count →
    ∀ i : Instr, i = .read count ∨ i = .flush →
      ∃ t u, exec i s = .next t ∧ exec (.write 1 [b]) t = .next u ∧ u.head = some 0 ∧ u.tail = some 0 ∧
        u.store.read 0 = some b ∧ u.contents = [b]

/-- R128, R100: a freshly initialized buffer takes as many bytes as its policy allows and no more: `capacity` by default,
`capacity - 1` under `ONE_SLOT_WASTED`. -/
def Obligations.FreshBufferCapacity : Prop :=
  ∀ (s : State) (c : Nat) (data : List Byte) (b : Byte), 1 ≤ c → s.cfg.capFits c = true → s.cfg.argFits c = true →
    (s.cfg.fullPolicy = .tailNextEqHead → data.length = c) → (s.cfg.fullPolicy = .oneSlotWasted → data.length = c - 1) →
    ∃ t u v, exec (.init c) s = .next t ∧ t.empty = true ∧
      exec (.write data.length data) t = .next u ∧ u.response = some ⟨0, data, []⟩ ∧ u.full = true ∧ u.contents = data ∧
      exec (.write 1 [b]) u = .next v ∧ v.response = some ⟨1, [], []⟩ ∧ v.unitF = u.unitF

/-- R160: the complete transition table over the four named states, and the occupancy of a PartiallyFilled buffer. -/
def Obligations.TransitionTable : Prop :=
  ∀ s : State, UnitFInv s →
    (∀ c, 1 ≤ c → s.cfg.capFits c = true → ∃ t, exec (.init c) s = .next t ∧ t.classify = .empty ∧ t.capacity = c) ∧
    (∀ c, c = 0 ∨ s.cfg.capFits c = false → ∃ t, exec (.init c) s = .next t ∧ t.classify = .deinitialized) ∧
    (∃ t, exec .deinit s = .next t ∧ t.classify = .deinitialized) ∧
    (∃ t, exec .flush s = .next t ∧
      t.classify = if s.classify = .deinitialized then .deinitialized else .empty) ∧
    (∀ data : List Byte, ∃ t r, exec (.write data.length data) s = .next t ∧ t.response = some r ∧
      (s.classify = .deinitialized → t.classify = .deinitialized ∧ r.value = data.length) ∧
      (s.classify = .empty → min data.length s.usable = 0 → t.classify = .empty) ∧
      (s.classify = .empty → 0 < min data.length s.usable → min data.length s.usable < s.usable →
        t.classify = .partiallyFilled) ∧
      (s.classify = .empty → min data.length s.usable = s.usable → 1 ≤ s.usable → t.classify = .full) ∧
      (s.classify = .partiallyFilled → s.occ + data.length < s.usable → t.classify = .partiallyFilled) ∧
      (s.classify = .partiallyFilled → s.usable ≤ s.occ + data.length → t.classify = .full) ∧
      (s.classify = .full → t.classify = .full ∧ r.value = data.length)) ∧
    (∀ count, ∃ t r, exec (.read count) s = .next t ∧ t.response = some r ∧
      (s.classify = .deinitialized → t.classify = .deinitialized ∧ r.value = count) ∧
      (s.classify = .empty → t.classify = .empty ∧ r.value = count) ∧
      (s.classify = .partiallyFilled → count < s.occ → t.classify = .partiallyFilled) ∧
      (s.classify = .partiallyFilled → s.occ ≤ count → t.classify = .empty) ∧
      (s.classify = .full → count = 0 → t.classify = .full) ∧
      (s.classify = .full → 0 < count → count < s.occ → t.classify = .partiallyFilled) ∧
      (s.classify = .full → s.occ ≤ count → t.classify = .empty)) ∧
    (∀ i : Instr, i = .isempty ∨ i = .isfull ∨ (∃ h m l, i = .decode h m l) →
      ∃ t, exec i s = .next t ∧ t.unitF = s.unitF) ∧
    (s.classify = .partiallyFilled → 0 < s.occ ∧ s.occ < s.usable) ∧
    (resetBlock s).classify = .deinitialized

/-- R30, R28: two states that agree on present, capacity and contents (and on the parameters and the draw counter) give the same
responses to every list of well-formed operations, and agree at the end: neither the positions of head and tail nor the bytes
outside the written window can be observed. The draw counter is the model's own (log 3). -/
def Obligations.OnlyContentsObservable : Prop :=
  ∀ (is : List Instr) (s₁ s₂ : State), UnitFInv s₁ → UnitFInv s₂ →
    s₁.cfg = s₂.cfg → s₁.draws = s₂.draws → s₁.present = s₂.present → s₁.capacity = s₂.capacity →
    s₁.contents = s₂.contents → (∀ i ∈ is, WellFormed s₁.cfg i = true) →
    ∃ rs t₁ t₂, runOps is s₁ = some (rs, t₁) ∧ runOps is s₂ = some (rs, t₂) ∧
      t₁.present = t₂.present ∧ t₁.capacity = t₂.capacity ∧ t₁.contents = t₂.contents ∧ t₁.draws = t₂.draws

/-- R196: a WRITE or READ of no bytes returns 0 in every state and changes nothing; on an absent buffer the guard comes first, so
`ISFULL_ABSENT` plays no part. -/
def Obligations.OrderOfChecks : Prop :=
  ∀ s : State,
    exec (.write 0 []) s = .next { s with response := some ⟨0, [], []⟩ } ∧
    exec (.read 0) s = .next { s with response := some ⟨0, [], []⟩ } ∧
    (s.present = false →
      (∀ data : List Byte, exec (.write data.length data) s = .next { s with response := some ⟨data.length, [], []⟩ }) ∧
      (∀ n, exec (.read n) s = .next { s with response := some ⟨n, [], []⟩ }))

/-- A WRITE request whose data is not `count` bytes has no meaning, in any state (93 U12). -/
def Obligations.IllFormedWriteRefused : Prop :=
  ∀ (s : State) (count : Nat) (data : List Byte), data.length ≠ count →
    exec (.write count data) s = .refused .dataLengthMismatch

/-! ## Store accesses (20_memory) -/

/-- R54, R62: a slot that exists can be stored to, and then reads as the byte stored, every other slot as before; a slot that
does not exist faults. The fault is the model's (log 5). -/
def Obligations.StoreAccess : Prop :=
  ∀ (s : State) (i : Nat) (b : Byte),
    (s.present = true → i < s.capacity → ∃ t, memWrite i b s = .ok t ∧ memRead i t = .ok (b, t) ∧
      (∀ j, j ≠ i → t.store.read j = s.store.read j) ∧ t = { s with store := t.store } ∧
      (s.store.wf → t.store.wf)) ∧
    (s.present = false ∨ s.capacity ≤ i → memWrite i b s = .error .noSuchSlot ∧ memRead i s = .error .noSuchSlot)

/-! ## Unit D (43_decoder) -/

/-- R170, R83, R172, R174: DECODE of any three bytes, its result field by field, from every state. -/
def Obligations.DecodeResult : Prop :=
  ∀ (s : State) (h m l : Byte), ∃ v : DecOut,
    exec (.decode h m l) s = .next { s with decOut := some v } ∧
    ((v.toNat / 4096 % 64 : Nat) : Int) = ((h.toNat : Int) - 0x30) % 64 ∧
    ((v.toNat / 64 % 64 : Nat) : Int) = ((m.toNat : Int) - 0x30) % 64 ∧
    ((v.toNat % 64 : Nat) : Int) = ((l.toNat : Int) - 0x30) % 64 ∧
    v.toNat / 262144 = 0

/-- R173: the equivalent forms of the field function, and its four preimages. -/
def Obligations.FieldForms : Prop :=
  (∀ b : Byte, ((decField b).toNat : Int) = ((b.toNat : Int) - 48) % 64 ∧
    (decField b).toNat = (b.toNat + 16) % 64 ∧ (decField b).toNat = (b.toNat % 64 + 16) % 64 ∧
    (b.toNat ≤ 0x2F → (decField b).toNat = b.toNat + 16) ∧
    (0x30 ≤ b.toNat → b.toNat ≤ 0x6F → (decField b).toNat = b.toNat - 0x30) ∧
    (0x70 ≤ b.toNat → b.toNat ≤ 0xAF → (decField b).toNat = b.toNat - 0x70) ∧
    (0xB0 ≤ b.toNat → b.toNat ≤ 0xEF → (decField b).toNat = b.toNat - 0xB0) ∧
    (0xF0 ≤ b.toNat → (decField b).toNat = b.toNat - 0xF0)) ∧
  (∀ v : BitVec 6, ∃ b₁ b₂ b₃ b₄ : Byte, [b₁, b₂, b₃, b₄].Nodup ∧
    ∀ b : Byte, decField b = v ↔ b = b₁ ∨ b = b₂ ∨ b = b₃ ∨ b = b₄)

/-- R173, R176: restricted to in-range bytes DECODE is a bijection onto the values below 2^18. -/
def Obligations.InRangeBijection : Prop :=
  ∀ v : Nat, v < 2 ^ 18 →
    ∃ h m l : Byte, (h.toNat = 0x30 + v / 4096 ∧ m.toNat = 0x30 + v / 64 % 64 ∧ l.toNat = 0x30 + v % 64) ∧
      (decTriple h m l).toNat = v ∧
      ∀ h' m' l' : Byte, (∀ b ∈ [h', m', l'], 0x30 ≤ b.toNat ∧ b.toNat ≤ 0x6F) → (decTriple h' m' l').toNat = v →
        h' = h ∧ m' = m ∧ l' = l

/-- R175: a step that serves unit D, whatever unit F is doing, changes DEC_OUT only, to a value that depends on the operand word
alone; and an operation of unit F behaves alike whatever DEC_OUT is. -/
def Obligations.UnitsShareNothing : Prop :=
  (∀ word : DecIn, ∃ v : DecOut, ∀ (s : State) (rest : List Request), s.pending = .op (.dec word) :: rest →
    step s = .next { s with pending := rest, decOut := some v }) ∧
  (∀ (i : Instr) (s t : State) (d : Option DecOut), (∀ h m l, i ≠ .decode h m l) → exec i s = .next t →
    exec i { s with decOut := d } = .next { t with decOut := d })

/-! ## Ports (30_encoding R86 to R90) -/

/-- R88: a sample shows the three status levels, which are what ISEMPTY and ISFULL would return at that moment, and changes
nothing of the block; an edge shows the same levels. -/
def Obligations.StatusOutputs : Prop :=
  ∀ (s : State) (rest : List Request),
    (s.pending = .sample :: rest → ∃ t u v x y z, step s = .next t ∧ t.status = some ⟨x, y, z⟩ ∧ t.unitF = s.unitF ∧
      t.burst = s.burst ∧ t.response = s.response ∧
      x = s.present ∧ exec .isempty s = .next u ∧ u.response = some ⟨if y then 1 else 0, [], []⟩ ∧
      exec .isfull s = .next v ∧ v.response = some ⟨if z then 1 else 0, [], []⟩) ∧
    (∀ p advance t, s.pending = .edge p advance :: rest → step s = .next t →
      ∃ o, t.pins = some o ∧ o.status = ⟨s.present, s.empty, s.full⟩)

/-- R231, R87: a command presented while `cmd_ready` is low is not taken and has no effect, as a transaction and at the pins.
For a transaction that meets a busy port this is log 10. -/
def Obligations.CommandNotTakenWhileBusy : Prop :=
  ∀ s : State, s.burst.phase ≠ .idle →
    (∀ word data rest, s.pending = .op (.cmd word data) :: rest → step s = .next { s with pending := rest }) ∧
    (∀ (p : PinsIn) (advance valid : Bool) (word : Nat),
      clockEdge { p with cmdValid := valid, cmd := word } advance s = clockEdge p advance s) ∧
    (∀ advance o, outputPins advance s = .ok o → o.cmdReady = false)

/-- R87: `rsp_valid` is high for one cycle, with the response on `rsp` and `cmd_ready` low, and then the port is idle and
`cmd_ready` is high. The phases of the port are log 8, and that
the levels of the next cycle hold whatever `rst` is in it is log 15. -/
def Obligations.ResponseLastsOneCycle : Prop :=
  ∀ (s : State) (p : PinsIn) (advance : Bool), Inv s → s.burst.phase = .responding → p.rst = false →
    ∃ t o r, clockEdge p advance s = .next t ∧ t.pins = some o ∧ s.response = some r ∧ o.rsp = some r.value ∧
      o.cmdReady = false ∧ t.burst.phase = .idle ∧ t.response = s.response ∧
      ∀ advance' o', outputPins advance' t = .ok o' → o'.rsp = none ∧ o'.cmdReady = true

/-- R36, R87: the edge that takes a WRITE or READ command latches its count and starts at byte 0; unit F is not yet touched.
The phases of the port are log 8. -/
def Obligations.BurstAcceptance : Prop :=
  ∀ (s : State) (p : PinsIn) (advance : Bool) (count : Nat), UnitFInv s → s.burst.phase = .idle →
    s.cfg.argFits count = true → p.rst = false → p.cmdValid = true →
    (p.cmd = count * 8 + 5 → ∃ t, clockEdge p advance s = .next t ∧ t.unitF = s.unitF ∧ t.burst = ⟨.writing, 0, count, []⟩) ∧
    (p.cmd = count * 8 + 6 → ∃ t, clockEdge p advance s = .next t ∧ t.unitF = s.unitF ∧ t.burst = ⟨.reading, 0, count, []⟩)

/-- R90 for WRITE: from the edge that takes the command to the cycle of its response, the bytes that crossed the write stream
are a prefix of any data that the host would have written, and the state and the response are those of that WRITE.
The edges and their bit of progress are log 8. -/
def Obligations.PortWriteRefinesWrite : Prop :=
  ∀ (s s₁ t : State) (p : PinsIn) (advance : Bool) (count : Nat) (es : List (PinsIn × Bool)) (taken out : List Byte),
    Inv s → s.burst.phase = .idle → s.cfg.argFits count = true →
    p.rst = false → p.cmdValid = true → p.cmd = cmdWord .write count → clockEdge p advance s = .next s₁ →
    (∀ e ∈ es, e.1.rst = false) → runUntilResponse es s₁ = some (taken, out, t) →
    out = [] ∧ taken.length ≤ count ∧ t.response = some ⟨count - taken.length, taken, []⟩ ∧
    ∀ data : List Byte, data.length = count → data.take taken.length = taken →
      ∃ u, exec (.write count data) s = .next u ∧ u.unitF = t.unitF ∧ u.response = t.response

/-- R90 for READ: the bytes that crossed the read stream, the response and the state are those of the READ.
The edges and their bit of progress are log 8. -/
def Obligations.PortReadRefinesRead : Prop :=
  ∀ (s s₁ t : State) (p : PinsIn) (advance : Bool) (count : Nat) (es : List (PinsIn × Bool)) (taken out : List Byte),
    Inv s → s.burst.phase = .idle → s.cfg.argFits count = true →
    p.rst = false → p.cmdValid = true → p.cmd = cmdWord .read count → clockEdge p advance s = .next s₁ →
    (∀ e ∈ es, e.1.rst = false) → runUntilResponse es s₁ = some (taken, out, t) →
    taken = [] ∧ ∃ u, exec (.read count) s = .next u ∧ u.unitF = t.unitF ∧ u.response = t.response ∧
      t.response = some ⟨count - out.length, [], out⟩

/-- R90 for the five commands without a stream: the state is that of the operation, and so is the response, but for an ISFULL
whose answer is a fresh draw. The edges and their bit of progress are log 8, the draw is log 3. -/
def Obligations.PortCommandRefinesOperation : Prop :=
  ∀ (s s₁ t : State) (p : PinsIn) (advance : Bool) (i : Instr) (es : List (PinsIn × Bool)) (taken out : List Byte),
    Inv s → s.burst.phase = .idle → Instr.streamless i = true → decode s.cfg (.cmd p.cmd []) = .ok i →
    p.rst = false → p.cmdValid = true → clockEdge p advance s = .next s₁ →
    (∀ e ∈ es, e.1.rst = false) → runUntilResponse es s₁ = some (taken, out, t) →
    taken = [] ∧ out = [] ∧ ∃ u, exec i s = .next u ∧ u.unitF = t.unitF ∧
      (i ≠ .isfull ∨ s.fullIsDraw = false → u.response = t.response)

/-- R241, R87: an operation at the ports ends: when the host keeps its streams moving and the block is ready to make progress,
`rsp_valid` is high after at most one edge more than the bytes still wanted.
That the block is ready is an input of the model (log 8). -/
def Obligations.PortOperationEnds : Prop :=
  ∀ (s : State) (es : List (PinsIn × Bool)), Inv s → s.burst.phase ≠ .idle →
    (∀ e ∈ es, e.1.rst = false ∧ e.1.wrValid = true ∧ e.1.rdReady = true ∧ e.2 = true) →
    s.burst.count - s.burst.index + 1 ≤ es.length →
    ∃ taken out t, runUntilResponse es s = some (taken, out, t) ∧ t.burst.phase = .responding
end

