-- ==== Sys2Proof/Laws/State.lean ====
section
/-! SUPPORT. One lemma per field per named update of the state, all true by `rfl`. -/

namespace Sys2Proof.Machine

open Sys2Proof

@[simp] theorem State.respond_cfg (v : Nat) (taken out : List Byte) (s : State) : (s.respond v taken out).cfg = s.cfg := rfl
@[simp] theorem State.respond_present (v : Nat) (taken out : List Byte) (s : State) : (s.respond v taken out).present = s.present := rfl
@[simp] theorem State.respond_capacity (v : Nat) (taken out : List Byte) (s : State) : (s.respond v taken out).capacity = s.capacity := rfl
@[simp] theorem State.respond_head (v : Nat) (taken out : List Byte) (s : State) : (s.respond v taken out).head = s.head := rfl
@[simp] theorem State.respond_tail (v : Nat) (taken out : List Byte) (s : State) : (s.respond v taken out).tail = s.tail := rfl
@[simp] theorem State.respond_store (v : Nat) (taken out : List Byte) (s : State) : (s.respond v taken out).store = s.store := rfl
@[simp] theorem State.respond_burst (v : Nat) (taken out : List Byte) (s : State) : (s.respond v taken out).burst = s.burst := rfl
@[simp] theorem State.respond_pending (v : Nat) (taken out : List Byte) (s : State) : (s.respond v taken out).pending = s.pending := rfl
@[simp] theorem State.respond_response (v : Nat) (taken out : List Byte) (s : State) : (s.respond v taken out).response = some ⟨v, taken, out⟩ := rfl
@[simp] theorem State.respond_decOut (v : Nat) (taken out : List Byte) (s : State) : (s.respond v taken out).decOut = s.decOut := rfl
@[simp] theorem State.respond_status (v : Nat) (taken out : List Byte) (s : State) : (s.respond v taken out).status = s.status := rfl
@[simp] theorem State.respond_pins (v : Nat) (taken out : List Byte) (s : State) : (s.respond v taken out).pins = s.pins := rfl
@[simp] theorem State.respond_draws (v : Nat) (taken out : List Byte) (s : State) : (s.respond v taken out).draws = s.draws := rfl

@[simp] theorem State.flushed_cfg (s : State) : s.flushed.cfg = s.cfg := rfl
@[simp] theorem State.flushed_present (s : State) : s.flushed.present = s.present := rfl
@[simp] theorem State.flushed_capacity (s : State) : s.flushed.capacity = s.capacity := rfl
@[simp] theorem State.flushed_head (s : State) : s.flushed.head = none := rfl
@[simp] theorem State.flushed_tail (s : State) : s.flushed.tail = none := rfl
@[simp] theorem State.flushed_store (s : State) : s.flushed.store = s.store := rfl
@[simp] theorem State.flushed_burst (s : State) : s.flushed.burst = s.burst := rfl
@[simp] theorem State.flushed_pending (s : State) : s.flushed.pending = s.pending := rfl
@[simp] theorem State.flushed_response (s : State) : s.flushed.response = s.response := rfl
@[simp] theorem State.flushed_decOut (s : State) : s.flushed.decOut = s.decOut := rfl
@[simp] theorem State.flushed_status (s : State) : s.flushed.status = s.status := rfl
@[simp] theorem State.flushed_pins (s : State) : s.flushed.pins = s.pins := rfl
@[simp] theorem State.flushed_draws (s : State) : s.flushed.draws = s.draws := rfl

@[simp] theorem State.absent_cfg (s : State) : s.absent.cfg = s.cfg := rfl
@[simp] theorem State.absent_present (s : State) : s.absent.present = false := rfl
@[simp] theorem State.absent_capacity (s : State) : s.absent.capacity = 0 := rfl
@[simp] theorem State.absent_head (s : State) : s.absent.head = none := rfl
@[simp] theorem State.absent_tail (s : State) : s.absent.tail = none := rfl
@[simp] theorem State.absent_store (s : State) : s.absent.store = [] := rfl
@[simp] theorem State.absent_burst (s : State) : s.absent.burst = s.burst := rfl
@[simp] theorem State.absent_pending (s : State) : s.absent.pending = s.pending := rfl
@[simp] theorem State.absent_response (s : State) : s.absent.response = s.response := rfl
@[simp] theorem State.absent_decOut (s : State) : s.absent.decOut = s.decOut := rfl
@[simp] theorem State.absent_status (s : State) : s.absent.status = s.status := rfl
@[simp] theorem State.absent_pins (s : State) : s.absent.pins = s.pins := rfl
@[simp] theorem State.absent_draws (s : State) : s.absent.draws = s.draws := rfl

@[simp] theorem State.created_cfg (c : Nat) (s : State) : (s.created c).cfg = s.cfg := rfl
@[simp] theorem State.created_present (c : Nat) (s : State) : (s.created c).present = true := rfl
@[simp] theorem State.created_capacity (c : Nat) (s : State) : (s.created c).capacity = c := rfl
@[simp] theorem State.created_head (c : Nat) (s : State) : (s.created c).head = none := rfl
@[simp] theorem State.created_tail (c : Nat) (s : State) : (s.created c).tail = none := rfl
@[simp] theorem State.created_store (c : Nat) (s : State) : (s.created c).store = [] := rfl
@[simp] theorem State.created_burst (c : Nat) (s : State) : (s.created c).burst = s.burst := rfl
@[simp] theorem State.created_pending (c : Nat) (s : State) : (s.created c).pending = s.pending := rfl
@[simp] theorem State.created_response (c : Nat) (s : State) : (s.created c).response = s.response := rfl
@[simp] theorem State.created_decOut (c : Nat) (s : State) : (s.created c).decOut = s.decOut := rfl
@[simp] theorem State.created_status (c : Nat) (s : State) : (s.created c).status = s.status := rfl
@[simp] theorem State.created_pins (c : Nat) (s : State) : (s.created c).pins = s.pins := rfl
@[simp] theorem State.created_draws (c : Nat) (s : State) : (s.created c).draws = s.draws := rfl

@[simp] theorem State.afterFull_cfg (s : State) : s.afterFull.cfg = s.cfg := rfl
@[simp] theorem State.afterFull_present (s : State) : s.afterFull.present = s.present := rfl
@[simp] theorem State.afterFull_capacity (s : State) : s.afterFull.capacity = s.capacity := rfl
@[simp] theorem State.afterFull_head (s : State) : s.afterFull.head = s.head := rfl
@[simp] theorem State.afterFull_tail (s : State) : s.afterFull.tail = s.tail := rfl
@[simp] theorem State.afterFull_store (s : State) : s.afterFull.store = s.store := rfl
@[simp] theorem State.afterFull_burst (s : State) : s.afterFull.burst = s.burst := rfl
@[simp] theorem State.afterFull_pending (s : State) : s.afterFull.pending = s.pending := rfl
@[simp] theorem State.afterFull_response (s : State) : s.afterFull.response = s.response := rfl
@[simp] theorem State.afterFull_decOut (s : State) : s.afterFull.decOut = s.decOut := rfl
@[simp] theorem State.afterFull_status (s : State) : s.afterFull.status = s.status := rfl
@[simp] theorem State.afterFull_pins (s : State) : s.afterFull.pins = s.pins := rfl
@[simp] theorem State.afterFull_draws (s : State) : s.afterFull.draws = if s.fullIsDraw then s.draws + 1 else s.draws := rfl

@[simp] theorem resetBlock_cfg (s : State) : (resetBlock s).cfg = s.cfg := rfl
@[simp] theorem resetBlock_present (s : State) : (resetBlock s).present = false := rfl
@[simp] theorem resetBlock_capacity (s : State) : (resetBlock s).capacity = 0 := rfl
@[simp] theorem resetBlock_head (s : State) : (resetBlock s).head = none := rfl
@[simp] theorem resetBlock_tail (s : State) : (resetBlock s).tail = none := rfl
@[simp] theorem resetBlock_store (s : State) : (resetBlock s).store = [] := rfl
@[simp] theorem resetBlock_burst (s : State) : (resetBlock s).burst = Burst.none := rfl
@[simp] theorem resetBlock_pending (s : State) : (resetBlock s).pending = s.pending := rfl
@[simp] theorem resetBlock_response (s : State) : (resetBlock s).response = none := rfl
@[simp] theorem resetBlock_decOut (s : State) : (resetBlock s).decOut = s.decOut := rfl
@[simp] theorem resetBlock_status (s : State) : (resetBlock s).status = s.status := rfl
@[simp] theorem resetBlock_pins (s : State) : (resetBlock s).pins = s.pins := rfl
@[simp] theorem resetBlock_draws (s : State) : (resetBlock s).draws = s.draws := rfl

@[simp] theorem sampleStatus_cfg (s : State) : (sampleStatus s).cfg = s.cfg := rfl
@[simp] theorem sampleStatus_present (s : State) : (sampleStatus s).present = s.present := rfl
@[simp] theorem sampleStatus_capacity (s : State) : (sampleStatus s).capacity = s.capacity := rfl
@[simp] theorem sampleStatus_head (s : State) : (sampleStatus s).head = s.head := rfl
@[simp] theorem sampleStatus_tail (s : State) : (sampleStatus s).tail = s.tail := rfl
@[simp] theorem sampleStatus_store (s : State) : (sampleStatus s).store = s.store := rfl
@[simp] theorem sampleStatus_burst (s : State) : (sampleStatus s).burst = s.burst := rfl
@[simp] theorem sampleStatus_pending (s : State) : (sampleStatus s).pending = s.pending := rfl
@[simp] theorem sampleStatus_response (s : State) : (sampleStatus s).response = s.response := rfl
@[simp] theorem sampleStatus_decOut (s : State) : (sampleStatus s).decOut = s.decOut := rfl
@[simp] theorem sampleStatus_status (s : State) : (sampleStatus s).status = some s.statusOut := rfl
@[simp] theorem sampleStatus_pins (s : State) : (sampleStatus s).pins = s.pins := rfl
@[simp] theorem sampleStatus_draws (s : State) : (sampleStatus s).draws = if s.fullIsDraw then s.draws + 1 else s.draws := rfl

end Sys2Proof.Machine
end

