-- ==== Sys2Proof/Laws/Memory.lean ====
section
/-! SUPPORT. The laws of the store: read after write, other slots, the canonical form. -/

namespace Sys2Proof.Machine

open Sys2Proof

@[simp] theorem Memory.read_nil (i : Nat) : Memory.read [] i = none := rfl

theorem Memory.read_write_same (m : Memory) (i : Nat) (b : Byte) : (m.write i b).read i = some b := by
  induction m with
  | nil => simp [Memory.write, Memory.read]
  | cons c m ih =>
    obtain ⟨a, x⟩ := c
    unfold Memory.write
    split
    · simp [Memory.read]
    · split
      · simp [Memory.read]
      · have : a ≠ i := by omega
        simp [Memory.read, this, ih]

theorem Memory.read_write_other (m : Memory) {i j : Nat} (b : Byte) (h : j ≠ i) :
    (m.write i b).read j = m.read j := by
  induction m with
  | nil => simp [Memory.write, Memory.read, Ne.symm h]
  | cons c m ih =>
    obtain ⟨a, x⟩ := c
    unfold Memory.write
    split
    · simp [Memory.read, Ne.symm h]
    · split
      · subst_vars; simp [Memory.read, Ne.symm h]
      · simp [Memory.read, ih]

theorem Memory.read_write (m : Memory) (i j : Nat) (b : Byte) :
    (m.write i b).read j = if j = i then some b else m.read j := by
  split
  · subst_vars; exact m.read_write_same _ b
  · exact m.read_write_other b ‹_›

/-- A listed slot of the store after a write is the slot written or was listed before. -/
theorem Memory.mem_write {m : Memory} {i : Nat} {b : Byte} {c : Host.Cell} (h : c ∈ m.write i b) :
    c = (i, b) ∨ c ∈ m := by
  induction m with
  | nil => simpa [Memory.write] using h
  | cons d m ih =>
    obtain ⟨a, x⟩ := d
    unfold Memory.write at h
    split at h
    · simpa using h
    · split at h
      · simp only [List.mem_cons] at h ⊢; tauto
      · simp only [List.mem_cons] at h ⊢; tauto

/-- A write keeps the canonical form. -/
theorem Memory.write_wf {m : Memory} (i : Nat) (b : Byte) (h : m.wf) : (m.write i b).wf := by
  induction m with
  | nil => simp [Memory.write, Memory.wf]
  | cons d m ih =>
    obtain ⟨a, x⟩ := d
    obtain ⟨hd, hm⟩ := List.pairwise_cons.mp h
    unfold Memory.write
    split
    · refine List.pairwise_cons.mpr ⟨fun c hc => ?_, h⟩
      rcases List.mem_cons.mp hc with rfl | hc
      · assumption
      · exact Nat.lt_trans ‹i < a› (hd c hc)
    · split
      · subst_vars; exact List.pairwise_cons.mpr ⟨hd, hm⟩
      · refine List.pairwise_cons.mpr ⟨fun c hc => ?_, ih hm⟩
        rcases Memory.mem_write hc with rfl | hc
        · show a < i; omega
        · exact hd c hc

theorem Memory.nil_wf : Memory.wf [] := List.Pairwise.nil

/-- No slot below the first listed one is listed. -/
theorem Memory.read_below {m : Memory} {i : Nat} (h : ∀ c ∈ m, i < c.1) : m.read i = none := by
  induction m with
  | nil => rfl
  | cons d m ih =>
    obtain ⟨a, x⟩ := d
    have ha : i < a := h (a, x) (by simp)
    have : a ≠ i := by omega
    simp [Memory.read, this, ih fun c hc => h c (by simp [hc])]

/-- Two stores in canonical form that read the same everywhere are the same data. -/
theorem Memory.ext_read {m n : Memory} (hm : m.wf) (hn : n.wf) (h : ∀ i, m.read i = n.read i) : m = n := by
  induction m generalizing n with
  | nil =>
    cases n with
    | nil => rfl
    | cons d n => have := h d.1; simp [Memory.read] at this
  | cons d m ih =>
    obtain ⟨a, x⟩ := d
    obtain ⟨hd, hm'⟩ := List.pairwise_cons.mp hm
    cases n with
    | nil => have := h a; simp [Memory.read] at this
    | cons e n =>
      obtain ⟨a', x'⟩ := e
      obtain ⟨he, hn'⟩ := List.pairwise_cons.mp hn
      have haa : a = a' := by
        rcases Nat.lt_trichotomy a a' with hlt | heq | hgt
        · have h1 := h a
          have h2 : Memory.read n a = none :=
            Memory.read_below fun c hc => Nat.lt_trans hlt (he c hc)
          have : a' ≠ a := by omega
          simp [Memory.read, this, h2] at h1
        · exact heq
        · have h1 := h a'
          have h2 : Memory.read m a' = none :=
            Memory.read_below fun c hc => Nat.lt_trans hgt (hd c hc)
          have : a ≠ a' := by omega
          simp [Memory.read, this, h2] at h1
      subst haa
      have hx : x = x' := by have := h a; simpa [Memory.read] using this
      subst hx
      have : m = n := ih hm' hn' fun i => by
        by_cases hi : a = i
        · subst hi
          rw [Memory.read_below hd, Memory.read_below he]
        · have := h i; simpa [Memory.read, hi] using this
      rw [this]

end Sys2Proof.Machine
end

