-- ==== Sys2Proof/Laws/Ring.lean ====
section
/-! SUPPORT. The arithmetic of the ring: successor, occupancy and ring slots without `%`, so that `omega` closes goals. -/

namespace Sys2Proof.Machine

open Sys2Proof

@[simp] theorem nextSlot_none (c : Nat) : nextSlot c none = 0 := rfl

/-- The second form of 00_scope R13. -/
theorem nextSlot_some {c i : Nat} (h : i < c) : nextSlot c (some i) = if i + 1 = c then 0 else i + 1 := by
  simp only [nextSlot]
  split
  · simp_all
  · exact Nat.mod_eq_of_lt (by omega)

theorem nextSlot_lt {c : Nat} (hc : 1 ≤ c) (i : Idx) : nextSlot c i < c := by
  cases i with
  | none => exact hc
  | some i => exact Nat.mod_lt _ hc

theorem ringSlot_eq {c h j : Nat} (hh : h < c) (hj : j < c) :
    ringSlot c h j = if h + j < c then h + j else h + j - c := by
  unfold ringSlot
  split
  · exact Nat.mod_eq_of_lt ‹_›
  · rw [Nat.mod_eq_sub_mod (by omega)]
    exact Nat.mod_eq_of_lt (by omega)

theorem ringSlot_lt {c : Nat} (hc : 1 ≤ c) (h j : Nat) : ringSlot c h j < c := Nat.mod_lt _ hc

theorem ringDistance_eq {c h t : Nat} (hh : h < c) (ht : t < c) :
    (t + (c - h)) % c = if h ≤ t then t - h else t + c - h := by
  split
  · have : t + (c - h) = (t - h) + c := by omega
    rw [this, Nat.add_mod_right]
    exact Nat.mod_eq_of_lt (by omega)
  · have : t + (c - h) = t + c - h := by omega
    rw [this]
    exact Nat.mod_eq_of_lt (by omega)

theorem occ_of_head_none {s : State} (h : s.head = none) : s.occ = 0 := by
  simp [State.occ, h]

theorem occ_of_some {s : State} {h t : Nat} (hh : s.head = some h) (ht : s.tail = some t)
    (hhc : h < s.capacity) (htc : t < s.capacity) :
    s.occ = (if h ≤ t then t - h else t + s.capacity - h) + 1 := by
  simp [State.occ, hh, ht, ringDistance_eq hhc htc]

/-- The formula of 10_state R27, in integers. -/
theorem occ_eq_int {s : State} {h t : Nat} (hh : s.head = some h) (ht : s.tail = some t)
    (hhc : h < s.capacity) (htc : t < s.capacity) :
    (s.occ : Int) = ((t : Int) - (h : Int)) % (s.capacity : Int) + 1 := by
  rw [occ_of_some hh ht hhc htc]
  split
  · rw [Int.emod_eq_of_lt (by omega) (by omega)]; omega
  · have : ((t : Int) - h) % s.capacity = (t : Int) - h + s.capacity := by
      rw [← Int.add_emod_right]
      exact Int.emod_eq_of_lt (by omega) (by omega)
    rw [this]; omega

end Sys2Proof.Machine
end

