-- ==== Sys2Proof/Laws/Steps.lean ====
section
/-! SUPPORT. What the byte steps `push1` and `pop1` do, and that they keep the invariant of unit F. -/

namespace Sys2Proof.Machine

open Sys2Proof

/-- The state after an accepted write byte step (42_transfer R140). -/
def State.pushed (b : Byte) (s : State) : State :=
  { s with
    store := s.store.write (nextSlot s.capacity s.tail) b
    tail := some (nextSlot s.capacity s.tail)
    head := if s.head = none then some 0 else s.head }

/-- The state after a read byte step that delivered a byte (42_transfer R150). -/
def State.popped (s : State) : State :=
  if s.head = s.tail then s.flushed else { s with head := some (nextSlot s.capacity s.head) }

section fields
variable (b : Byte) (s : State)

@[simp] theorem State.pushed_cfg : (s.pushed b).cfg = s.cfg := rfl
@[simp] theorem State.pushed_present : (s.pushed b).present = s.present := rfl
@[simp] theorem State.pushed_capacity : (s.pushed b).capacity = s.capacity := rfl
@[simp] theorem State.pushed_tail : (s.pushed b).tail = some (nextSlot s.capacity s.tail) := rfl
@[simp] theorem State.pushed_head : (s.pushed b).head = if s.head = none then some 0 else s.head := rfl
@[simp] theorem State.pushed_store : (s.pushed b).store = s.store.write (nextSlot s.capacity s.tail) b := rfl
@[simp] theorem State.pushed_burst : (s.pushed b).burst = s.burst := rfl
@[simp] theorem State.pushed_pending : (s.pushed b).pending = s.pending := rfl
@[simp] theorem State.pushed_response : (s.pushed b).response = s.response := rfl
@[simp] theorem State.pushed_decOut : (s.pushed b).decOut = s.decOut := rfl
@[simp] theorem State.pushed_status : (s.pushed b).status = s.status := rfl
@[simp] theorem State.pushed_pins : (s.pushed b).pins = s.pins := rfl
@[simp] theorem State.pushed_draws : (s.pushed b).draws = s.draws := rfl

theorem State.popped_eq : s.popped =
    { s with
      head := if s.head = s.tail then none else some (nextSlot s.capacity s.head)
      tail := if s.head = s.tail then none else s.tail } := by
  unfold State.popped
  split <;> simp [State.flushed, *]

@[simp] theorem State.popped_cfg : s.popped.cfg = s.cfg := by simp [State.popped_eq]
@[simp] theorem State.popped_present : s.popped.present = s.present := by simp [State.popped_eq]
@[simp] theorem State.popped_capacity : s.popped.capacity = s.capacity := by simp [State.popped_eq]
@[simp] theorem State.popped_head :
    s.popped.head = if s.head = s.tail then none else some (nextSlot s.capacity s.head) := by simp [State.popped_eq]
@[simp] theorem State.popped_tail : s.popped.tail = if s.head = s.tail then none else s.tail := by
  simp [State.popped_eq]
@[simp] theorem State.popped_store : s.popped.store = s.store := by simp [State.popped_eq]
@[simp] theorem State.popped_burst : s.popped.burst = s.burst := by simp [State.popped_eq]
@[simp] theorem State.popped_pending : s.popped.pending = s.pending := by simp [State.popped_eq]
@[simp] theorem State.popped_response : s.popped.response = s.response := by simp [State.popped_eq]
@[simp] theorem State.popped_decOut : s.popped.decOut = s.decOut := by simp [State.popped_eq]
@[simp] theorem State.popped_status : s.popped.status = s.status := by simp [State.popped_eq]
@[simp] theorem State.popped_pins : s.popped.pins = s.pins := by simp [State.popped_eq]
@[simp] theorem State.popped_draws : s.popped.draws = s.draws := by simp [State.popped_eq]

end fields

/-- `occ`, `usable`, `full` look at nothing but unit F, the parameters and, when absent, the draw counter. -/
theorem occ_congr {s t : State} (hc : t.capacity = s.capacity) (hh : t.head = s.head) (ht : t.tail = s.tail) :
    t.occ = s.occ := by
  simp [State.occ, hc, hh, ht]

theorem usable_congr {s t : State} (hg : t.cfg = s.cfg) (hp : t.present = s.present) (hc : t.capacity = s.capacity) :
    t.usable = s.usable := by
  simp [State.usable, hg, hp, hc]

theorem State.usable_le_capacity (s : State) : s.usable ≤ s.capacity := by
  unfold State.usable
  split
  · split <;> omega
  · omega

theorem full_congr {s t : State} (hg : t.cfg = s.cfg) (hu : t.unitF = s.unitF) (hd : t.draws = s.draws) :
    t.full = s.full := by
  simp only [State.unitF, UnitF.mk.injEq] at hu
  obtain ⟨hp, hc, hh, ht, -⟩ := hu
  simp [State.full, hg, hp, hc, hh, ht, hd, occ_congr hc hh ht]

theorem contents_congr {s t : State} (hu : t.unitF = s.unitF) : t.contents = s.contents := by
  simp only [State.unitF, UnitF.mk.injEq] at hu
  obtain ⟨-, hc, hh, ht, hs⟩ := hu
  simp [State.contents, hc, hh, hs, occ_congr hc hh ht]

/-- The invariant of unit F looks at nothing but unit F and the parameters. -/
theorem UnitFInv.congr {s t : State} (h : UnitFInv s) (hg : t.cfg = s.cfg) (hu : t.unitF = s.unitF) : UnitFInv t := by
  simp only [State.unitF, UnitF.mk.injEq] at hu
  obtain ⟨hp, hc, hh, ht, hs⟩ := hu
  have ho : t.occ = s.occ := occ_congr hc hh ht
  have hus : t.usable = s.usable := usable_congr hg hp hc
  constructor
  · simpa [hh, ht, hc] using h.indices
  · simpa [hp, hc, hh, ht] using h.absent
  · simpa [hp, hc, hg] using h.capacity
  · simpa [hg, hc] using h.capacityWidth
  · simpa [ho, hus] using h.occupancy
  · simpa [hs] using h.storeForm
  · simpa [hs, hc] using h.storeExtent
  · simpa [hh, ho, hs, hc] using h.window

/-- The read byte step delivers nothing from an empty buffer (42_transfer R150). -/
theorem pop1_none {s : State} (h : s.head = none) : pop1 s = .ok none := by
  simp [pop1, h]

section
variable {s : State} (inv : UnitFInv s)
include inv

theorem UnitFInv.head_none_iff : s.head = none ↔ s.tail = none := by
  rcases inv.indices with ⟨h1, h2⟩ | ⟨h, t, h1, h2, -, -⟩ <;> simp [h1, h2]

theorem UnitFInv.occ_zero_iff : s.occ = 0 ↔ s.head = none := by
  rcases inv.indices with ⟨h1, h2⟩ | ⟨h, t, h1, h2, h3, h4⟩
  · simp [occ_of_head_none h1, h1]
  · simp [occ_of_some h1 h2 h3 h4, h1]

/-- 41_status R127, last sentence: under either policy, full means that the occupancy is the usable capacity. -/
theorem UnitFInv.full_iff (hp : s.present = true) : s.full = true ↔ s.occ = s.usable := by
  obtain ⟨hc, -⟩ := inv.capacity hp
  rcases inv.indices with ⟨h1, h2⟩ | ⟨h, t, h1, h2, h3, h4⟩
  · cases hpol : s.cfg.fullPolicy <;>
      simp [State.full, State.usable, hp, hpol, h1, occ_of_head_none h1] <;> omega
  · have ho := occ_of_some h1 h2 h3 h4
    cases hpol : s.cfg.fullPolicy
    · simp only [State.full, State.usable, hp, hpol, h1, h2, nextSlot_some h4, ho]
      simp only [if_true, Option.isSome_some, Bool.true_and, beq_iff_eq, Option.some.injEq]
      split <;> split <;> omega
    · simp only [State.full, State.usable, hp, hpol, if_true, beq_iff_eq]
      omega

/-- The write byte step (42_transfer R140), on an initialized buffer: rejected exactly when full, else accepted. -/
theorem UnitFInv.push1_eq (hp : s.present = true) (b : Byte) :
    push1 b s = .ok (if s.full then none else some (s.pushed b)) := by
  have hlt := nextSlot_lt (inv.capacity hp).1 s.tail
  unfold push1
  split
  · rfl
  · simp [memWrite, State.hasSlot, hp, hlt, State.pushed]

theorem UnitFInv.present_of_head {h : Nat} (hh : s.head = some h) : s.present = true := by
  by_contra hp
  have := (inv.absent (by simpa using hp)).2.1
  simp [this] at hh

theorem UnitFInv.head_lt {h : Nat} (hh : s.head = some h) : h < s.capacity := by
  rcases inv.indices with ⟨h1, h2⟩ | ⟨h', t, h1, h2, h3, h4⟩
  · simp [h1] at hh
  · simp_all

theorem UnitFInv.head_byte {h : Nat} (hh : s.head = some h) : ∃ b, s.store.read h = some b := by
  have ho : 0 < s.occ := Nat.pos_of_ne_zero fun h0 => by simp [inv.occ_zero_iff.mp h0] at hh
  have hw := inv.window h hh 0 ho
  have hl := inv.head_lt hh
  rw [ringSlot_eq hl (by omega)] at hw
  simp [hl] at hw
  exact Option.isSome_iff_exists.mp hw

/-- The read byte step delivers the byte in slot `head` of a buffer that is not empty (42_transfer R150). -/
theorem UnitFInv.pop1_some {h : Nat} {b : Byte} (hh : s.head = some h) (hb : s.store.read h = some b) :
    pop1 s = .ok (some (b, s.popped)) := by
  have hl := inv.head_lt hh
  have hp := inv.present_of_head hh
  simp only [pop1, hh, memRead, State.hasSlot, hp, hl, hb]
  simp [State.popped, hh]

/-- The occupancy after an accepted byte (42_transfer R143). -/
theorem UnitFInv.pushed_occ (hp : s.present = true) (hf : s.full = false) (b : Byte) :
    (s.pushed b).occ = s.occ + 1 := by
  obtain ⟨hc, -⟩ := inv.capacity hp
  have hne : s.occ ≠ s.usable := fun h => by simp [(inv.full_iff hp).mpr h] at hf
  have hu := s.usable_le_capacity
  have hocc := inv.occupancy
  rcases inv.indices with ⟨h1, h2⟩ | ⟨h, t, h1, h2, h3, h4⟩
  · rw [occ_of_some (s := s.pushed b) (h := 0) (t := 0) (by simp [h1]) (by simp [h2]) hc hc,
      occ_of_head_none h1]
    simp
  · have ho := occ_of_some h1 h2 h3 h4
    rw [occ_of_some (s := s.pushed b) (h := h) (t := if t + 1 = s.capacity then 0 else t + 1) (by simp [h1])
      (by simp [h2, nextSlot_some h4]) (by simpa using h3) (by simp; split <;> omega), ho]
    simp only [State.pushed_capacity]
    split at ho <;> split <;> split <;> omega

/-- Where the ring slots of the window stand after an accepted byte: the old ones in place, and the new byte's behind them. -/
theorem UnitFInv.pushed_slot (hp : s.present = true) (hf : s.full = false) {h : Nat}
    (hh : (if s.head = none then some 0 else s.head) = some h) :
    nextSlot s.capacity s.tail = ringSlot s.capacity h s.occ ∧
      ∀ j, j < s.occ → ringSlot s.capacity h j ≠ nextSlot s.capacity s.tail := by
  obtain ⟨hc, -⟩ := inv.capacity hp
  have hne : s.occ ≠ s.usable := fun h => by simp [(inv.full_iff hp).mpr h] at hf
  have hu := s.usable_le_capacity
  have hocc := inv.occupancy
  rcases inv.indices with ⟨h1, h2⟩ | ⟨h', t, h1, h2, h3, h4⟩
  · simp [h1] at hh
    subst hh
    simp [h2, occ_of_head_none h1, ringSlot]
  · simp [h1] at hh
    subst hh
    have ho := occ_of_some h1 h2 h3 h4
    rw [h2, nextSlot_some h4]
    refine ⟨?_, fun j hj => ?_⟩
    · rw [ringSlot_eq h3 (by omega)]
      split at ho <;> split <;> split <;> omega
    · rw [ringSlot_eq h3 (by omega)]
      split at ho <;> split <;> split <;> omega

/-- An accepted byte keeps the invariant of unit F. -/
theorem UnitFInv.pushed (hp : s.present = true) (hf : s.full = false) (b : Byte) : UnitFInv (s.pushed b) := by
  obtain ⟨hc, hcf⟩ := inv.capacity hp
  have hne : s.occ ≠ s.usable := fun h => by simp [(inv.full_iff hp).mpr h] at hf
  have hocc := inv.occupancy
  have hlt := nextSlot_lt hc s.tail
  have hpo := inv.pushed_occ hp hf b
  constructor
  · right
    rcases inv.indices with ⟨h1, h2⟩ | ⟨h, t, h1, h2, h3, h4⟩
    · exact ⟨0, _, by simp [h1], rfl, hc, hlt⟩
    · exact ⟨h, _, by simp [h1], rfl, by simpa using h3, by simpa using hlt⟩
  · simp [hp]
  · simp [hc, hcf]
  · exact inv.capacityWidth
  · have hus : (s.pushed b).usable = s.usable := rfl
    omega
  · exact Memory.write_wf _ _ inv.storeForm
  · intro c hcm
    rcases Memory.mem_write hcm with rfl | hcm
    · exact hlt
    · exact inv.storeExtent c hcm
  · intro h hh j hj
    obtain ⟨hs1, hs2⟩ := inv.pushed_slot hp hf hh
    rw [hpo] at hj
    simp only [State.pushed_store, State.pushed_capacity, Memory.read_write]
    split
    · rfl
    · rcases Nat.lt_or_ge j s.occ with hj' | hj'
      · cases hhead : s.head with
        | none => simp [occ_of_head_none hhead] at hj'
        | some h' =>
          simp [hhead] at hh
          subst hh
          exact inv.window h' hhead j hj'
      · have : j = s.occ := by omega
        subst this
        simp_all

/-- An accepted byte stands at the end of the contents (42_transfer R143). -/
theorem UnitFInv.pushed_contents (hp : s.present = true) (hf : s.full = false) (b : Byte) :
    (s.pushed b).contents = s.contents ++ [b] := by
  have hpo := inv.pushed_occ hp hf b
  obtain ⟨h, hh⟩ : ∃ h, (if s.head = none then some 0 else s.head) = some h := by
    cases hhead : s.head with
    | none => exact ⟨0, by simp⟩
    | some h => exact ⟨h, by simp⟩
  obtain ⟨hs1, hs2⟩ := inv.pushed_slot hp hf hh
  have hold : s.contents = (List.range s.occ).filterMap fun j => s.store.read (ringSlot s.capacity h j) := by
    cases hhead : s.head with
    | none => simp [State.contents, hhead, occ_of_head_none hhead]
    | some h' => simp [hhead] at hh; subst hh; simp [State.contents, hhead]
  rw [hold]
  simp only [State.contents, State.pushed_head, hh, hpo, State.pushed_capacity, State.pushed_store, List.range_succ,
    List.filterMap_append]
  congr 1
  · refine List.filterMap_congr fun j hj => ?_
    exact Memory.read_write_other _ _ (hs2 j (List.mem_range.mp hj))
  · simp [← hs1, Memory.read_write_same]

/-- The occupancy after a byte is delivered (42_transfer R153). -/
theorem UnitFInv.popped_occ {h : Nat} (hh : s.head = some h) : s.popped.occ + 1 = s.occ := by
  rcases inv.indices with ⟨h1, h2⟩ | ⟨h', t, h1, h2, h3, h4⟩
  · simp [h1] at hh
  · have ho := occ_of_some h1 h2 h3 h4
    by_cases hht : h' = t
    · rw [occ_of_head_none (s := s.popped) (by simp [h1, h2, hht]), ho]
      simp [hht]
    · rw [occ_of_some (s := s.popped) (h := if h' + 1 = s.capacity then 0 else h' + 1) (t := t)
        (by simp [h1, h2, hht, nextSlot_some h3]) (by simp [h1, h2, hht]) (by simp; split <;> omega) (by simpa using h4), ho]
      simp only [State.popped_capacity]
      split <;> split <;> split <;> omega

/-- `head == tail` is true exactly when one byte is held (42_transfer R150). -/
theorem UnitFInv.head_eq_tail_iff {h : Nat} (hh : s.head = some h) : s.head = s.tail ↔ s.occ = 1 := by
  rcases inv.indices with ⟨h1, h2⟩ | ⟨h', t, h1, h2, h3, h4⟩
  · simp [h1] at hh
  · rw [occ_of_some h1 h2 h3 h4, h1, h2]
    simp only [Option.some.injEq]
    split <;> omega

/-- The ring slots after a byte is delivered are the old ones, one further on. -/
theorem UnitFInv.popped_slot {h : Nat} (hh : s.head = some h) {j : Nat} (hj : j + 1 < s.occ) :
    ringSlot s.capacity (nextSlot s.capacity s.head) j = ringSlot s.capacity h (j + 1) := by
  rcases inv.indices with ⟨h1, h2⟩ | ⟨h', t, h1, h2, h3, h4⟩
  · simp [h1] at hh
  · have ho := occ_of_some h1 h2 h3 h4
    rw [hh] at h1
    cases h1
    rw [hh, nextSlot_some h3, ringSlot_eq (by split <;> omega) (by split at ho <;> omega),
      ringSlot_eq h3 (by split at ho <;> omega)]
    split at ho <;> split <;> split <;> split <;> omega

/-- Delivering a byte keeps the invariant of unit F. -/
theorem UnitFInv.popped {h : Nat} (hh : s.head = some h) : UnitFInv s.popped := by
  have hp := inv.present_of_head hh
  obtain ⟨hc, hcf⟩ := inv.capacity hp
  have hpo := inv.popped_occ hh
  have hocc := inv.occupancy
  constructor
  · rcases inv.indices with ⟨h1, h2⟩ | ⟨h', t, h1, h2, h3, h4⟩
    · simp [h1] at hh
    · by_cases hht : h' = t
      · left; simp [h1, h2, hht]
      · right
        exact ⟨nextSlot s.capacity s.head, t, by simp [h1, h2, hht], by simp [h1, h2, hht],
          by simpa using nextSlot_lt hc _, by simpa using h4⟩
  · simp [hp]
  · simp [hc, hcf]
  · simpa using inv.capacityWidth
  · rw [usable_congr (s := s) (by simp) (by simp) (by simp)]; omega
  · simpa using inv.storeForm
  · simpa using inv.storeExtent
  · intro k hk j hj
    have hj' : j + 1 < s.occ := by omega
    have hne : s.head ≠ s.tail := fun heq => by simp [heq] at hk
    simp only [State.popped_head, hne, if_false, Option.some.injEq] at hk
    subst hk
    simpa [inv.popped_slot hh hj'] using inv.window h hh (j + 1) hj'

/-- The delivered byte is the first of the contents (42_transfer R153). -/
theorem UnitFInv.contents_popped {h : Nat} {b : Byte} (hh : s.head = some h) (hb : s.store.read h = some b) :
    s.contents = b :: s.popped.contents := by
  have hpo := inv.popped_occ hh
  have hl := inv.head_lt hh
  have h0 : ringSlot s.capacity h 0 = h := by rw [ringSlot_eq hl (by omega)]; simp [hl]
  have hs : s.contents = b :: (List.range s.popped.occ).filterMap fun j =>
      s.store.read (ringSlot s.capacity h (j + 1)) := by
    simp only [State.contents, hh, ← hpo, List.range_succ_eq_map, List.filterMap_cons, h0, hb, List.filterMap_map]
    rfl
  rw [hs]
  congr 1
  by_cases heq : s.head = s.tail
  · have : s.popped.occ = 0 := by have := (inv.head_eq_tail_iff hh).mp heq; omega
    simp [State.contents, heq, this]
  · simp only [State.contents, State.popped_head, heq, if_false, State.popped_capacity, State.popped_store]
    refine List.filterMap_congr fun j hj => ?_
    rw [inv.popped_slot hh (by have := List.mem_range.mp hj; omega)]

/-- The contents are as many as the occupancy (10_state R30). -/
theorem UnitFInv.contents_length : s.contents.length = s.occ := by
  generalize hn : s.occ = n
  induction n generalizing s with
  | zero => simp [State.contents, inv.occ_zero_iff.mp hn]
  | succ n ih =>
    cases hh : s.head with
    | none => simp [occ_of_head_none hh] at hn
    | some h =>
      obtain ⟨b, hb⟩ := inv.head_byte hh
      have hpo := inv.popped_occ hh
      rw [inv.contents_popped hh hb, List.length_cons, ih (inv.popped hh) (by omega)]

end

end Sys2Proof.Machine
end

