-- ==== Sys2Proof/Laws/Bursts.lean ====
section
/-! SUPPORT. What the burst loops `pushAll` and `popAll` do, and the meanings of WRITE and READ in those terms. -/

namespace Sys2Proof.Machine

open Sys2Proof

/-- The state after several accepted bytes. -/
def State.pushedAll : List Byte → State → State
  | [], s => s
  | b :: bs, s => State.pushedAll bs (s.pushed b)

/-- The state after several delivered bytes. -/
def State.poppedAll : Nat → State → State
  | 0, s => s
  | n + 1, s => State.poppedAll n s.popped

@[simp] theorem State.pushedAll_nil (s : State) : State.pushedAll [] s = s := rfl
@[simp] theorem State.pushedAll_cons (b : Byte) (bs : List Byte) (s : State) :
    State.pushedAll (b :: bs) s = State.pushedAll bs (s.pushed b) := rfl
@[simp] theorem State.poppedAll_zero (s : State) : State.poppedAll 0 s = s := rfl
@[simp] theorem State.poppedAll_succ (n : Nat) (s : State) :
    State.poppedAll (n + 1) s = State.poppedAll n s.popped := rfl

/-- Accepted bytes change the indices and the store only. -/
theorem State.pushedAll_frame (bs : List Byte) (s : State) :
    State.pushedAll bs s =
      { s with
        head := (State.pushedAll bs s).head
        tail := (State.pushedAll bs s).tail
        store := (State.pushedAll bs s).store } := by
  induction bs generalizing s with
  | nil => rfl
  | cons b bs ih => rw [State.pushedAll_cons, ih (s.pushed b)]; simp [State.pushed]

/-- Delivered bytes change the indices only. -/
theorem State.poppedAll_frame (n : Nat) (s : State) :
    State.poppedAll n s =
      { s with head := (State.poppedAll n s).head, tail := (State.poppedAll n s).tail } := by
  induction n generalizing s with
  | zero => rfl
  | succ n ih => rw [State.poppedAll_succ, ih s.popped]; simp [State.popped_eq]

section fields
variable (bs : List Byte) (n : Nat) (s : State)

@[simp] theorem State.pushedAll_cfg : (State.pushedAll bs s).cfg = s.cfg := by rw [State.pushedAll_frame]
@[simp] theorem State.pushedAll_present : (State.pushedAll bs s).present = s.present := by rw [State.pushedAll_frame]
@[simp] theorem State.pushedAll_capacity : (State.pushedAll bs s).capacity = s.capacity := by
  rw [State.pushedAll_frame]
@[simp] theorem State.pushedAll_burst : (State.pushedAll bs s).burst = s.burst := by rw [State.pushedAll_frame]
@[simp] theorem State.pushedAll_response : (State.pushedAll bs s).response = s.response := by
  rw [State.pushedAll_frame]
@[simp] theorem State.pushedAll_draws : (State.pushedAll bs s).draws = s.draws := by rw [State.pushedAll_frame]
@[simp] theorem State.poppedAll_cfg : (State.poppedAll n s).cfg = s.cfg := by rw [State.poppedAll_frame]
@[simp] theorem State.poppedAll_present : (State.poppedAll n s).present = s.present := by rw [State.poppedAll_frame]
@[simp] theorem State.poppedAll_capacity : (State.poppedAll n s).capacity = s.capacity := by
  rw [State.poppedAll_frame]
@[simp] theorem State.poppedAll_store : (State.poppedAll n s).store = s.store := by rw [State.poppedAll_frame]
@[simp] theorem State.poppedAll_burst : (State.poppedAll n s).burst = s.burst := by rw [State.poppedAll_frame]
@[simp] theorem State.poppedAll_response : (State.poppedAll n s).response = s.response := by
  rw [State.poppedAll_frame]
@[simp] theorem State.poppedAll_draws : (State.poppedAll n s).draws = s.draws := by rw [State.poppedAll_frame]

end fields

section
variable {s : State} (inv : UnitFInv s)
include inv

/-- How many bytes of a WRITE are accepted (42_transfer R142). -/
theorem UnitFInv.pushAll_eq (hp : s.present = true) (data : List Byte) :
    pushAll data s =
      .ok (min data.length (s.usable - s.occ), State.pushedAll (data.take (s.usable - s.occ)) s) := by
  induction data generalizing s with
  | nil => simp [pushAll]
  | cons b bs ih =>
    have hocc := inv.occupancy
    unfold pushAll
    rw [inv.push1_eq hp b]
    cases hf : s.full with
    | true =>
      have := (inv.full_iff hp).mp hf
      simp [this]
    | false =>
      have hne : s.occ ≠ s.usable := fun h => by simp [(inv.full_iff hp).mpr h] at hf
      have hpo := inv.pushed_occ hp hf b
      have hus : (s.pushed b).usable = s.usable := rfl
      obtain ⟨k, hk⟩ : ∃ k, s.usable - s.occ = k + 1 := ⟨s.usable - s.occ - 1, by omega⟩
      have hk' : (s.pushed b).usable - (s.pushed b).occ = k := by omega
      simp [ih (inv.pushed hp hf b) hp, hk, hk']

/-- Accepted bytes keep the invariant, and stand at the end of the contents (42_transfer R143). -/
theorem UnitFInv.pushedAll (hp : s.present = true) {bs : List Byte} (hle : bs.length ≤ s.usable - s.occ) :
    UnitFInv (State.pushedAll bs s) ∧ (State.pushedAll bs s).contents = s.contents ++ bs ∧
      (State.pushedAll bs s).occ = s.occ + bs.length := by
  induction bs generalizing s with
  | nil => simp [inv]
  | cons b bs ih =>
    simp only [List.length_cons] at hle
    have hf : s.full = false := by
      by_contra h
      have := (inv.full_iff hp).mp (by simpa using h)
      omega
    have hpo := inv.pushed_occ hp hf b
    have hus : (s.pushed b).usable = s.usable := rfl
    obtain ⟨h1, h2, h3⟩ := ih (inv.pushed hp hf b) hp (by omega)
    refine ⟨h1, ?_, ?_⟩
    · rw [State.pushedAll_cons, h2, inv.pushed_contents hp hf b]; simp
    · rw [State.pushedAll_cons, h3, hpo, List.length_cons]; omega

/-- How many bytes of a READ are delivered, and which (42_transfer R152, R153). -/
theorem UnitFInv.popAll_eq (n : Nat) :
    popAll n s = .ok (s.contents.take n, State.poppedAll (min n s.occ) s) := by
  induction n generalizing s with
  | zero => simp [popAll]
  | succ n ih =>
    unfold popAll
    cases hh : s.head with
    | none => simp [pop1_none hh, occ_of_head_none hh, State.contents, hh]
    | some h =>
      obtain ⟨b, hb⟩ := inv.head_byte hh
      have hpo := inv.popped_occ hh
      rw [inv.pop1_some hh hb, inv.contents_popped hh hb]
      have hm : min (n + 1) s.occ = min n s.popped.occ + 1 := by omega
      simp [ih (inv.popped hh), hm]

/-- Delivered bytes keep the invariant, and are the front of the contents (42_transfer R153). -/
theorem UnitFInv.poppedAll {n : Nat} (hle : n ≤ s.occ) :
    UnitFInv (State.poppedAll n s) ∧ (State.poppedAll n s).contents = s.contents.drop n ∧
      (State.poppedAll n s).occ = s.occ - n := by
  induction n generalizing s with
  | zero => simp [inv]
  | succ n ih =>
    cases hh : s.head with
    | none => simp [occ_of_head_none hh] at hle
    | some h =>
      obtain ⟨b, hb⟩ := inv.head_byte hh
      have hpo := inv.popped_occ hh
      obtain ⟨h1, h2, h3⟩ := ih (inv.popped hh) (by omega)
      refine ⟨h1, ?_, ?_⟩
      · rw [State.poppedAll_succ, h2, inv.contents_popped hh hb]; simp
      · rw [State.poppedAll_succ, h3]; omega

/-- WRITE on an initialized buffer, in terms of the accepted bytes (42_transfer R141, R142). -/
theorem UnitFInv.execWrite_eq (hp : s.present = true) (data : List Byte) :
    execWrite data.length data s =
      .next ((State.pushedAll (data.take (s.usable - s.occ)) s).respond
        (data.length - min data.length (s.usable - s.occ)) (data.take (s.usable - s.occ)) []) := by
  have : data.take (min data.length (s.usable - s.occ)) = data.take (s.usable - s.occ) := by
    rw [List.take_eq_take_iff]; omega
  simp [execWrite, hp, inv.pushAll_eq hp, this]

/-- READ on an initialized buffer, in terms of the delivered bytes (42_transfer R151, R152). -/
theorem UnitFInv.execRead_eq (hp : s.present = true) (n : Nat) :
    execRead n s =
      .next ((State.poppedAll (min n s.occ) s).respond (n - min n s.occ) [] (s.contents.take n)) := by
  simp [execRead, hp, inv.popAll_eq n, inv.contents_length]

end

/-- WRITE on a Deinitialized buffer (42_transfer R141). -/
theorem execWrite_absent {s : State} (hp : s.present = false) (data : List Byte) :
    execWrite data.length data s = .next (s.respond data.length [] []) := by
  simp [execWrite, hp]

/-- READ on a Deinitialized buffer (42_transfer R151). -/
theorem execRead_absent {s : State} (hp : s.present = false) (n : Nat) :
    execRead n s = .next (s.respond n [] []) := by
  simp [execRead, hp]

end Sys2Proof.Machine
end

