-- ==== Sys2Proof/Laws/Decoder.lean ====
section
/-! SUPPORT. Unit D in naturals: the field function and the result word. -/

namespace Sys2Proof.Machine

open Sys2Proof

/-- 43_decoder R173, second form. -/
theorem decField_toNat (b : Byte) : (decField b).toNat = (b.toNat + 16) % 64 := by
  simp only [decField, BitVec.extractLsb'_toNat, BitVec.toNat_sub, Nat.shiftRight_zero]
  have := b.isLt
  simp
  omega

theorem decField_lt (b : Byte) : (decField b).toNat < 64 := (decField b).isLt

/-- 43_decoder R172: the three fields do not overlap, so their disjunction is their sum. -/
theorem decTriple_toNat (h m l : Byte) :
    (decTriple h m l).toNat = (decField h).toNat * 4096 + (decField m).toNat * 64 + (decField l).toNat := by
  have hh := decField_lt h
  have hm := decField_lt m
  have hl := decField_lt l
  simp only [decTriple, BitVec.toNat_or, BitVec.toNat_shiftLeft, BitVec.toNat_setWidth, Nat.shiftLeft_eq]
  rw [Nat.mod_eq_of_lt (a := (decField h).toNat) (by omega), Nat.mod_eq_of_lt (a := (decField m).toNat) (by omega),
    Nat.mod_eq_of_lt (a := (decField l).toNat) (by omega), Nat.mod_eq_of_lt (by omega), Nat.mod_eq_of_lt (by omega)]
  have e1 : (decField h).toNat * 2 ^ 12 ||| (decField m).toNat * 2 ^ 6
      = ((decField h).toNat * 2 ^ 6 ||| (decField m).toNat) * 2 ^ 6 := by
    simp only [← Nat.shiftLeft_eq, Nat.shiftLeft_or_distrib, ← Nat.shiftLeft_add]
  have e2 : (decField h).toNat * 2 ^ 6 ||| (decField m).toNat = (decField h).toNat * 2 ^ 6 + (decField m).toNat := by
    rw [Nat.mul_comm]
    exact (Nat.two_pow_add_eq_or_of_lt (by simpa using hm) _).symm
  have e3 : (decField h).toNat * 2 ^ 12 ||| (decField m).toNat * 2 ^ 6 ||| (decField l).toNat
      = ((decField h).toNat * 2 ^ 6 + (decField m).toNat) * 2 ^ 6 + (decField l).toNat := by
    rw [e1, e2, Nat.mul_comm]
    exact (Nat.two_pow_add_eq_or_of_lt (by simpa using hl) _).symm
  rw [e3]
  omega

end Sys2Proof.Machine
end

