-- ==== Sys2Proof/Laws/Lifecycle.lean ====
section
/-! SUPPORT. The lifecycle assignments, the response and the draw counter keep the invariant of unit F. -/

namespace Sys2Proof.Machine

open Sys2Proof

@[simp] theorem State.respond_unitF (v : Nat) (taken out : List Byte) (s : State) :
    (s.respond v taken out).unitF = s.unitF := rfl

@[simp] theorem State.afterFull_unitF (s : State) : s.afterFull.unitF = s.unitF := rfl

/-- A state that is absent. -/
theorem State.absent_unitF (s : State) : s.absent.unitF = ⟨false, 0, none, none, []⟩ := rfl

theorem argFits_mono {cfg : Config} {a b : Nat} (h : cfg.argFits b = true) (hab : a ≤ b) : cfg.argFits a = true := by
  unfold Config.argFits at *
  split <;> simp_all
  omega

theorem argFits_one {cfg : Config} (h : cfg.wf = true) : cfg.argFits 1 = true := by
  unfold Config.wf at h
  unfold Config.argFits
  split
  · rfl
  · rename_i w hw
    simp only [hw, Bool.and_eq_true, decide_eq_true_eq] at h
    have : 2 ^ 1 ≤ 2 ^ w := Nat.pow_le_pow_right (by omega) h.1
    simp only [decide_eq_true_eq]
    omega

theorem argFits_boolRsp {cfg : Config} (h : cfg.wf = true) (b : Bool) : cfg.argFits (boolRsp b) = true := by
  cases b
  · exact argFits_mono (argFits_one h) (by simp [boolRsp])
  · simpa [boolRsp] using argFits_one h

/-- A Deinitialized state whose indices, capacity and store are those of reset meets the invariant of unit F. -/
theorem UnitFInv.of_absent {s : State} (h : s.unitF = ⟨false, 0, none, none, []⟩) : UnitFInv s := by
  simp only [State.unitF, UnitF.mk.injEq] at h
  obtain ⟨hp, hc, hh, ht, hs⟩ := h
  have ho := occ_of_head_none hh
  constructor <;> simp [*]
  unfold Config.argFits
  split <;> simp

/-- A Deinitialized state that meets the invariant has the five components of reset. -/
theorem UnitFInv.unitF_of_absent {s : State} (inv : UnitFInv s) (hp : s.present = false) :
    s.unitF = ⟨false, 0, none, none, []⟩ := by
  obtain ⟨hc, hh, ht⟩ := inv.absent hp
  have hs : s.store = [] := by
    cases hst : s.store with
    | nil => rfl
    | cons c m =>
      have := inv.storeExtent c (by simp [hst])
      omega
  simp [State.unitF, hp, hc, hh, ht, hs]

theorem UnitFInv.absentState (s : State) : UnitFInv s.absent := .of_absent rfl

theorem UnitFInv.createdState {c : Nat} (s : State) (h1 : 1 ≤ c) (hc : s.cfg.capFits c = true)
    (hw : s.cfg.argFits c = true) : UnitFInv (s.created c) := by
  have ho := occ_of_head_none (s := s.created c) rfl
  constructor <;> simp [*]

theorem UnitFInv.flushedState {s : State} (inv : UnitFInv s) : UnitFInv s.flushed := by
  have ho := occ_of_head_none (s := s.flushed) rfl
  constructor
  · simp
  · intro hp; simp [(inv.absent hp).1]
  · exact inv.capacity
  · exact inv.capacityWidth
  · omega
  · exact inv.storeForm
  · exact inv.storeExtent
  · simp

theorem UnitFInv.respondState {s : State} (inv : UnitFInv s) (v : Nat) (taken out : List Byte) :
    UnitFInv (s.respond v taken out) := inv.congr rfl rfl

theorem UnitFInv.afterFullState {s : State} (inv : UnitFInv s) : UnitFInv s.afterFull := inv.congr rfl rfl

end Sys2Proof.Machine
end

