-- ==== Sys2Proof/Laws/PerInstr.lean ====
section
/-! SUPPORT. The per-operation family RoundTrip: decoding what a host presents for a well-formed operation gives it back. -/

namespace Sys2Proof.Laws.RoundTrip

open Sys2Proof

/-- Under any parameters, a well-formed operation is what its own encoding decodes to. -/
def Statement (i : Instr) : Prop :=
  ∀ cfg : Config, WellFormed cfg i = true → decode cfg (encode i) = .ok i

/-- The operation field of a command word is the code it was built from. -/
theorem cmdOp_cmdWord (op : Op) (a : Nat) : cmdOp (cmdWord op a) = op.code := by
  cases op <;> simp [cmdOp, cmdWord, Op.code]

/-- The argument field of a command word is the argument it was built from. -/
theorem cmdArg_cmdWord (op : Op) (a : Nat) : cmdArg (cmdWord op a) = a := by
  cases op <;> simp [cmdArg, cmdWord, Op.code] <;> omega

theorem ofCode_code (op : Op) : Op.ofCode op.code = some op := by cases op <;> rfl

theorem argFits_zero (cfg : Config) : cfg.argFits 0 = true := by
  unfold Config.argFits
  split
  · rfl
  · simp

theorem init (c : Nat) : Statement (.init c) := fun cfg h => by
  have h' : cfg.argFits _ = true := h
  simp [encode, decode, decodeCmd, cmdOp_cmdWord, cmdArg_cmdWord, ofCode_code, h']

theorem deinit : Statement .deinit := fun cfg _ => by
  simp [encode, decode, decodeCmd, cmdOp_cmdWord, cmdArg_cmdWord, ofCode_code, argFits_zero]

theorem flush : Statement .flush := fun cfg _ => by
  simp [encode, decode, decodeCmd, cmdOp_cmdWord, cmdArg_cmdWord, ofCode_code, argFits_zero]

theorem isempty : Statement .isempty := fun cfg _ => by
  simp [encode, decode, decodeCmd, cmdOp_cmdWord, cmdArg_cmdWord, ofCode_code, argFits_zero]

theorem isfull : Statement .isfull := fun cfg _ => by
  simp [encode, decode, decodeCmd, cmdOp_cmdWord, cmdArg_cmdWord, ofCode_code, argFits_zero]

theorem write (count : Nat) (data : List Byte) : Statement (.write count data) := fun cfg h => by
  simp only [WellFormed, Bool.and_eq_true, beq_iff_eq] at h
  simp [encode, decode, decodeCmd, cmdOp_cmdWord, cmdArg_cmdWord, ofCode_code, h.1, h.2]

theorem read (count : Nat) : Statement (.read count) := fun cfg h => by
  have h' : cfg.argFits _ = true := h
  simp [encode, decode, decodeCmd, cmdOp_cmdWord, cmdArg_cmdWord, ofCode_code, h']

/-- Bit `k` of an operand word, by byte (30_encoding R82). -/
theorem getLsbD_operandWord (h m l : Byte) (k : Nat) :
    (h ++ m ++ l).getLsbD k = if k < 8 then l.getLsbD k else if k - 8 < 8 then m.getLsbD (k - 8) else h.getLsbD (k - 8 - 8) := by
  rw [BitVec.getLsbD_append, BitVec.getLsbD_append]

theorem decode (byteHigh byteMid byteLow : Byte) : Statement (.decode byteHigh byteMid byteLow) := fun cfg _ => by
  simp only [encode, Sys2Proof.decode, decodeDec, Except.ok.injEq, Instr.decode.injEq]
  refine ⟨?_, ?_, ?_⟩ <;> refine BitVec.eq_of_getLsbD_eq fun i hi => ?_ <;>
    rw [BitVec.getLsbD_extractLsb'] <;> simp only [hi, decide_true, Bool.true_and] <;>
    refine (getLsbD_operandWord byteHigh byteMid byteLow _).trans ?_
  · rw [if_neg (by omega), if_neg (by omega)]; congr 1; omega
  · rw [if_neg (by omega), if_pos (by omega)]; congr 1; omega
  · rw [if_pos (by omega)]; congr 1; omega

end Sys2Proof.Laws.RoundTrip
end

