-- ==== Sys2Proof/Laws/Requests.lean ====
section
/-! SUPPORT. What a step does, by the host's next action; what a clock edge does, by the phase of the port. -/

namespace Sys2Proof.Machine

open Sys2Proof

theorem step_nil {s : State} (h : s.pending = []) : step s = .next s := by
  simp [step, serveNext, nextRequest, h]

theorem step_cons {s : State} {r : Request} {rest : List Request} (h : s.pending = r :: rest) :
    step s = serve r { s with pending := rest } := by
  simp [step, serveNext, nextRequest, h]

/-- From a state that meets the invariant of unit F the output pins have their values (no fault). -/
theorem UnitFInv.outputPins_ok {s : State} (inv : UnitFInv s) (advance : Bool) :
    ∃ o, outputPins advance s = .ok o ∧ o.status = s.statusOut ∧
      o.cmdReady = (s.burst.phase == .idle) ∧ o.wrReady = wrReady advance s ∧
      o.rsp = (if s.burst.phase = .responding then s.response.map (·.value) else none) ∧
      o.rd = (if rdValid advance s then s.contents.head? else none) := by
  cases hv : rdValid advance s with
  | false => simp [outputPins, hv]
  | true =>
    cases hh : s.head with
    | none => simp [outputPins, hv, rdData, pop1_none hh, State.contents, hh]
    | some h =>
      obtain ⟨b, hb⟩ := inv.head_byte hh
      simp [outputPins, hv, rdData, inv.pop1_some hh hb, inv.contents_popped hh hb]

/-- The pins that need no store access have their values whatever the state. -/
theorem outputPins_frame {s : State} {advance : Bool} {o : PinsOut} (h : outputPins advance s = .ok o) :
    o.status = s.statusOut ∧ o.cmdReady = (s.burst.phase == .idle) ∧ o.wrReady = wrReady advance s := by
  cases hv : rdValid advance s <;> cases hr : rdData s <;> simp [outputPins, hv, hr] at h <;>
    exact h ▸ ⟨rfl, rfl, rfl⟩

/-- One edge, from a state that meets the invariant of unit F. -/
theorem UnitFInv.clockEdge_eq {s : State} (inv : UnitFInv s) (p : PinsIn) (advance : Bool) :
    ∃ o, outputPins advance s = .ok o ∧
      clockEdge p advance s =
        if p.rst then .next (resetBlock { s.afterFull with pins := some o })
        else portCycle p advance { s.afterFull with pins := some o } := by
  obtain ⟨o, ho, -⟩ := inv.outputPins_ok advance
  exact ⟨o, ho, by simp [clockEdge, ho]⟩

theorem portCycle_idle {s : State} (h : s.burst.phase = .idle) (p : PinsIn) (advance : Bool) :
    portCycle p advance s = if p.cmdValid then acceptCommand p.cmd s else .next s := by simp [portCycle, h]

theorem portCycle_command {s : State} {i : Instr} (h : s.burst.phase = .command i) (p : PinsIn) (advance : Bool) :
    portCycle p advance s = if advance then performCommand i s else .next s := by simp [portCycle, h]

theorem portCycle_writing {s : State} (h : s.burst.phase = .writing) (p : PinsIn) (advance : Bool) :
    portCycle p advance s = writeCycle p advance s := by simp [portCycle, h]

theorem portCycle_reading {s : State} (h : s.burst.phase = .reading) (p : PinsIn) (advance : Bool) :
    portCycle p advance s = readCycle p advance s := by simp [portCycle, h]

theorem portCycle_responding {s : State} (h : s.burst.phase = .responding) (p : PinsIn) (advance : Bool) :
    portCycle p advance s = .next { s with burst := Burst.none } := by simp [portCycle, h]

/-- The state on which the port works after the pins are sampled (`pins` and the draw counter apart, it is the state before). -/
theorem UnitFInv.clockEdge_sampled {s : State} (inv : UnitFInv s) {p : PinsIn} (advance : Bool) (h : p.rst = false) :
    ∃ o u, outputPins advance s = .ok o ∧ clockEdge p advance s = portCycle p advance u ∧
      u.cfg = s.cfg ∧ u.unitF = s.unitF ∧ u.burst = s.burst ∧ u.response = s.response ∧ u.pins = some o ∧
      (s.fullIsDraw = false → u.draws = s.draws) := by
  obtain ⟨o, ho, e⟩ := inv.clockEdge_eq p advance
  refine ⟨o, { s.afterFull with pins := some o }, ho, by simpa [h] using e, rfl, rfl, rfl, rfl, rfl, ?_⟩
  intro hd
  simp [hd]

theorem wantsByte_congr {s u : State} (hg : u.cfg = s.cfg) (hu : u.unitF = s.unitF) (hb : u.burst = s.burst) :
    u.wantsByte = s.wantsByte := by
  simp only [State.unitF, UnitF.mk.injEq] at hu
  obtain ⟨h1, h2, h3, h4, -⟩ := hu
  cases hp : s.present <;> simp [State.wantsByte, State.full, State.occ, hg, hb, h1, h2, h3, h4, hp]

theorem hasByte_congr {s u : State} (hu : u.unitF = s.unitF) (hb : u.burst = s.burst) : u.hasByte = s.hasByte := by
  simp only [State.unitF, UnitF.mk.injEq] at hu
  obtain ⟨h1, -, h3, -, -⟩ := hu
  simp [State.hasByte, State.empty, hb, h1, h3]

end Sys2Proof.Machine
end

