-- ==== Sys2Proof/Tests/Slice0.lean ====
section
/-! SUPPORT. Tests of the model against the spec's own encodings and vectors (30_encoding R94; 95_test_vectors), and for every
statement with hypotheses a concrete state and operands that meet them. -/

namespace Sys2Proof.Tests

open Sys2Proof Sys2Proof.Machine

/-! ## Helpers -/

/-- The next state of an outcome. -/
def nextOf : Out → Option State
  | .next t => some t
  | .fault _ => none
  | .refused _ => none

/-- A buffer under the suggested parameters but for the policy, in the notation of 95_test_vectors. -/
def buf (policy : FullPolicy) (capacity : Nat) (head tail : Idx) (store : Memory) : State :=
  { State.reset with
    cfg := { Config.suggested with fullPolicy := policy }
    present := true
    capacity := capacity
    head := head
    tail := tail
    store := store }

/-- A buffer under the default policy. -/
def ring (capacity : Nat) (head tail : Idx) (store : Memory) : State := buf .tailNextEqHead capacity head tail store

/-- A buffer under `ONE_SLOT_WASTED`. -/
def wasted (capacity : Nat) (head tail : Idx) (store : Memory) : State := buf .oneSlotWasted capacity head tail store

/-- A Deinitialized buffer with a value of `ISFULL_ABSENT`. -/
def away (a : IsfullAbsent) : State := { State.reset with cfg := { Config.suggested with isfullAbsent := a } }

/-- The bytes of slots 0, 1, ... -/
def slots (bs : List Byte) : Memory := (List.range bs.length).zip bs

/-- The register part of a state: `(present, capacity, head, tail)` and the store. -/
def unitOf (o : Out) : Option UnitF := (nextOf o).map State.unitF

/-- The response of an operation. -/
def responseOf (o : Out) : Option Response := (nextOf o).bind State.response

/-- The invariant of unit F as a check. -/
def unitFOk (s : State) : Bool :=
  (match s.head, s.tail with
    | none, none => true
    | some h, some t => decide (h < s.capacity) && decide (t < s.capacity)
    | _, _ => false) &&
  (s.present || s.capacity == 0 && s.head.isNone && s.tail.isNone) &&
  (!s.present || decide (1 ≤ s.capacity) && s.cfg.capFits s.capacity) &&
  s.cfg.argFits s.capacity && decide (s.occ ≤ s.usable) && decide s.store.wf &&
  s.store.all (fun c => decide (c.1 < s.capacity)) &&
  (match s.head with
    | none => true
    | some h => (List.range s.occ).all fun j => (s.store.read (ringSlot s.capacity h j)).isSome)

theorem unitFInv_of_ok {s : State} (h : unitFOk s = true) : UnitFInv s := by
  simp only [unitFOk, Bool.and_eq_true, decide_eq_true_eq, List.all_eq_true, Bool.or_eq_true, Bool.not_eq_true',
    beq_iff_eq, Option.isNone_iff_eq_none] at h
  obtain ⟨⟨⟨⟨⟨⟨⟨h1, h2⟩, h3⟩, h4⟩, h5⟩, h6⟩, h7⟩, h8⟩ := h
  refine ⟨?_, ?_, ?_, h4, h5, h6, h7, ?_⟩
  · cases hh : s.head <;> cases ht : s.tail <;> simp [hh, ht] at h1 ⊢
    exact h1
  · intro hp
    rcases h2 with h2 | h2
    · simp [hp] at h2
    · exact ⟨h2.1.1, h2.1.2, h2.2⟩
  · intro hp
    rcases h3 with h3 | h3
    · simp [hp] at h3
    · exact h3
  · intro x hx j hj
    rw [hx] at h8
    simp only [List.all_eq_true, List.mem_range] at h8
    exact h8 j hj

theorem inv_of_ok {s : State} (h : (s.cfg.wf && unitFOk s && s.burstOk && s.responseOk) = true) : Inv s := by
  simp only [Bool.and_eq_true] at h
  exact ⟨h.1.1.1, unitFInv_of_ok h.1.1.2, h.1.2, h.2⟩

/-- T14's last state: Full and wrapped. -/
def wrapped : State := ring 4 (some 2) (some 1) (slots [5, 6, 3, 4])

/-- T11's first state. -/
def three : State := ring 4 (some 0) (some 2) (slots [10, 20, 30])

/-- An Empty buffer of four slots. -/
def four : State := ring 4 none none []

/-- The same with one slot wasted. -/
def fourWasted : State := wasted 4 none none []

/-- Q8: one byte, in the last slot. -/
def lastSlot : State := ring 4 (some 3) (some 3) (slots [1, 2, 3, 7])

/-- Idle input pins. -/
def quiet : PinsIn := ⟨false, false, 0, false, 0, false⟩

/-- A command on the pins. -/
def commandPins (w : Nat) : PinsIn := ⟨false, true, w, false, 0, false⟩

/-- A byte on the write stream, and the host ready for read bytes. -/
def streamPins (b : Byte) : PinsIn := ⟨false, false, 0, true, b, true⟩

/-- A WRITE burst of 2 in progress on `three`, one byte taken. -/
def writingState : State := { ring 4 (some 0) (some 3) (slots [10, 20, 30, 40]) with burst := ⟨.writing, 1, 2, [40]⟩ }

/-- A READ burst of 3 in progress, two bytes delivered. -/
def readingState : State := { ring 4 (some 2) (some 2) (slots [10, 20, 30]) with burst := ⟨.reading, 2, 3, [10, 20]⟩ }

/-- The cycle of a response. -/
def respondingState : State := { three with burst := Burst.answer, response := some ⟨1, [], []⟩ }

/-! ## Well-formedness: each check refuses an ill-formed term -/

theorem test_wf_init_too_wide : WellFormed Config.suggested (.init 65536) = false := by decide
theorem test_wf_write_length : WellFormed Config.suggested (.write 3 [10, 20]) = false := by decide
theorem test_wf_write_too_wide : WellFormed { Config.suggested with width := some 1 } (.write 2 [1, 2]) = false := by decide
theorem test_wf_read_too_wide : WellFormed Config.suggested (.read 65536) = false := by decide
theorem test_wf_widest : WellFormed Config.suggested (.read 65535) = true := by decide
theorem test_wf_unbounded : WellFormed { Config.suggested with width := none } (.init 65536) = true := by decide

/-! ## Decoding: words from 30_encoding R71, R72, R82, R94, in binary `arg_op` -/

theorem test_decode_init : decode Config.suggested (.cmd 0b0000000000000100_000 []) = .ok (.init 4) := by rfl
theorem test_decode_deinit : decode Config.suggested (.cmd 0b0000000000000000_001 []) = .ok .deinit := by rfl
/-- LC15: the ignored argument, all ones. -/
theorem test_decode_deinit_arg : decode Config.suggested (.cmd 0x7FFF9 []) = .ok .deinit := by rfl
theorem test_decode_flush : decode Config.suggested (.cmd 0b0000000000000000_010 []) = .ok .flush := by rfl
theorem test_decode_isempty : decode Config.suggested (.cmd 0b0000000000000000_011 []) = .ok .isempty := by rfl
theorem test_decode_isfull : decode Config.suggested (.cmd 0b0000000000000000_100 []) = .ok .isfull := by rfl
theorem test_decode_write : decode Config.suggested (.cmd 0b0000000000000011_101 [10, 20, 30]) =
    .ok (.write 3 [10, 20, 30]) := by rfl
theorem test_decode_read : decode Config.suggested (.cmd 0b0000000000000010_110 []) = .ok (.read 2) := by rfl
theorem test_decode_reserved : decode Config.suggested (.cmd 0b0000000000000010_111 []) = .error .reservedOpcode := by rfl
theorem test_decode_too_wide : decode Config.suggested (.cmd 0x80000 []) = .error .wordTooWide := by rfl
theorem test_decode_write_short : decode Config.suggested (.cmd 0x0001D [10, 20]) = .error .dataLengthMismatch := by rfl
theorem test_decode_decode : decode Config.suggested (.dec 0b00110001_00110010_00110011#24) =
    .ok (.decode 0x31 0x32 0x33) := by rfl
theorem test_table_word_read : decodeTableWord 8 6 = some (.read 0) := by decide
theorem test_table_word_decode : decodeTableWord 24 0x415A61 = some (.decode 0x41 0x5A 0x61) := by decide
/-- R92's listing of a WRITE. -/
theorem test_listing : (Instr.write 3 [10, 20, 30]).listing = "WRITE 3 [10,20,30]" := by rfl

/-! ## One operation: vectors of 95_test_vectors -/

/-- LC7: old bytes discarded. -/
theorem test_init : unitOf (exec (.init 2) (ring 8 (some 0) (some 0) (slots [221, 187, 204]))) =
    some ⟨true, 2, none, none, []⟩ := by decide
/-- LC3. -/
theorem test_init_above_cap_max :
    (nextOf (exec (.init 9) { State.reset with cfg := { Config.suggested with capMax := some 8 } })).map
      (fun t => (t.unitF, t.response)) = some (⟨false, 0, none, none, []⟩, some ⟨1, [], []⟩) := by decide
/-- LC9. -/
theorem test_deinit : unitOf (exec .deinit (ring 4 (some 0) (some 1) (slots [7, 8]))) =
    some ⟨false, 0, none, none, []⟩ := by decide
/-- LC14: the store is not touched. -/
theorem test_flush : unitOf (exec .flush wrapped) = some ⟨true, 4, none, none, slots [5, 6, 3, 4]⟩ := by decide
/-- Q1, Q8. -/
theorem test_isempty : responseOf (exec .isempty State.reset) = some ⟨1, [], []⟩ ∧
    responseOf (exec .isempty lastSlot) = some ⟨0, [], []⟩ := by decide
/-- Q4 and Q6, Q7 under the default policy. -/
theorem test_isfull : responseOf (exec .isfull three) = some ⟨0, [], []⟩ ∧
    responseOf (exec .isfull wrapped) = some ⟨1, [], []⟩ ∧
    responseOf (exec .isfull (ring 4 (some 2) (some 0) (slots [40, 20, 30, 40]))) = some ⟨0, [], []⟩ := by decide
/-- Q2, Q7, Q9 under `ONE_SLOT_WASTED`. -/
theorem test_isfull_one_slot_wasted : responseOf (exec .isfull fourWasted) = some ⟨0, [], []⟩ ∧
    responseOf (exec .isfull (wasted 4 (some 2) (some 0) (slots [40, 20, 30, 40]))) = some ⟨1, [], []⟩ ∧
    responseOf (exec .isfull (wasted 1 none none [])) = some ⟨1, [], []⟩ := by decide
/-- T14: the tail wraps, one byte stays with the host. -/
theorem test_write : (nextOf (exec (.write 4 [4, 5, 6, 7]) (ring 4 (some 2) (some 2) (slots [1, 2, 3])))).map
    (fun t => (t.unitF, t.response)) = some (wrapped.unitF, some ⟨1, [4, 5, 6], []⟩) := by decide
/-- T8 under `ONE_SLOT_WASTED`: three bytes left over. -/
theorem test_write_one_slot_wasted : (nextOf (exec (.write 6 [1, 2, 3, 4, 5, 6]) fourWasted)).map
    (fun t => (t.unitF, t.response)) = some (⟨true, 4, some 0, some 2, slots [1, 2, 3]⟩, some ⟨3, [1, 2, 3], []⟩) := by
  decide
/-- T15: the head wraps, and the drain flushes. -/
theorem test_read : (nextOf (exec (.read 5) wrapped)).map (fun t => (t.unitF, t.response)) =
    some (⟨true, 4, none, none, slots [5, 6, 3, 4]⟩, some ⟨1, [], [3, 4, 5, 6]⟩) := by decide
/-- T11. -/
theorem test_read_short : (nextOf (exec (.read 2) three)).map (fun t => (t.head, t.tail, t.response)) =
    some (some 2, some 2, some ⟨0, [], [10, 20]⟩) := by decide
/-- X6. -/
theorem test_decode : (nextOf (exec (.decode 0x41 0x5A 0x61) three)).bind State.decOut = some 0x00011AB1 := by decide
/-- X13: bytes out of range. -/
theorem test_decode_out_of_range : (nextOf (exec (.decode 0x20 0x7F 0x80) three)).bind State.decOut = some 0x000303D0 := by
  decide

/-! ## One step: the ports -/

/-- R87: the byte that fills the buffer is taken on an edge where `wr_valid && wr_ready`. -/
theorem test_edge_write : (nextOf (clockEdge (streamPins 9) true { three with burst := ⟨.writing, 0, 2, []⟩ })).map
    (fun t => (t.unitF, t.burst)) = some (⟨true, 4, some 0, some 3, slots [10, 20, 30, 9]⟩, ⟨.writing, 1, 2, [9]⟩) := by
  decide
/-- R87: when the full check fails, the response is the remainder and no byte is taken. -/
theorem test_edge_write_full : (nextOf (clockEdge (streamPins 9) true writingState)).map
    (fun t => (t.unitF, t.burst, t.response)) = some (writingState.unitF, Burst.answer, some ⟨1, [40], []⟩) := by decide
/-- R87: the last byte goes out, and the buffer is flushed. -/
theorem test_edge_read : (nextOf (clockEdge (streamPins 0) true readingState)).map
    (fun t => (t.head, t.burst, t.pins.bind PinsOut.rd)) = some (none, ⟨.reading, 3, 3, [10, 20, 30]⟩, some 30) := by decide
/-- R221: reset inside a burst. -/
theorem test_edge_reset : (nextOf (clockEdge { quiet with rst := true } true readingState)).map
    (fun t => (t.unitF, t.burst, t.response)) = some (⟨false, 0, none, none, []⟩, Burst.none, none) := by decide
theorem test_step_runs_fetch_word : nextOf (step (State.reset.withFetchWord 8 1)) = nextOf (exec .deinit State.reset) := by
  rfl

/-! ## Witnesses: encoding -/

/-- DecodeOfEncode, EveryOperationCompletes: the widest argument, and a WRITE. -/
theorem witness_well_formed : WellFormed three.cfg (.init 65535) = true ∧ WellFormed three.cfg (.read 65535) = true ∧
    WellFormed three.cfg (.write 2 [1, 2]) = true ∧ WellFormed three.cfg (.decode 0 255 0x30) = true := by decide

/-- DecodeGivesWellFormed. -/
theorem witness_decoded : decode Config.suggested (.cmd 0x7FFFE []) = .ok (.read 65535) := by rfl

/-- CommandWordOperations, both cases of the data. -/
theorem witness_command_word : Config.suggested.argFits 65535 = true ∧ Config.suggested.argFits 2 = true ∧
    ([1, 2] : List Byte).length = 2 ∧ ([1] : List Byte).length ≠ 2 := by decide

/-- ReservedOpcodeRefused, at both levels. -/
theorem witness_reserved : UnitFInv three ∧ three.burst.phase = .idle ∧ three.cfg.argFits 65535 = true ∧
    ({ three with pending := [.op (.cmd (65535 * 8 + 7) [])] } : State).pending = .op (.cmd (65535 * 8 + 7) []) :: [] ∧
    ({ three with pending := [.edge (commandPins 7) true] } : State).pending = .edge (commandPins 7) true :: [] ∧
    (commandPins 7).rst = false ∧ (commandPins 7).cmdValid = true ∧ (commandPins 7).cmd = 0 * 8 + 7 :=
  ⟨unitFInv_of_ok (by decide), by decide, by decide, rfl, rfl, rfl, rfl, rfl⟩

/-- StepRunsDecodedOperation: a command at an idle port, and unit D inside a burst. -/
theorem witness_step_decoded :
    decode three.cfg (.cmd 0x16 []) = .ok (.read 2) ∧ three.burst.phase = .idle ∧
    decode readingState.cfg (.dec 0x313233) = .ok (.decode 0x31 0x32 0x33) ∧ readingState.burst.phase ≠ .idle :=
  ⟨rfl, rfl, rfl, by decide⟩

/-- StepCompletes, StepKeepsInvariant, StepKeepsParameters, NoRunFaults: the invariant in every phase of the port, the requests
that StepCompletes asks for, and steps that answer a next state. -/
theorem witness_invariant :
    Inv three ∧ Inv writingState ∧ Inv readingState ∧ Inv respondingState ∧ Inv (away .any) ∧
    Inv { wrapped with burst := ⟨.command .isfull, 0, 0, []⟩ } ∧ Inv (wasted 1 none none []) ∧
    Inv { three with pending := [.op (.cmd 0x16 [])] } ∧ Inv { three with pending := [.edge (commandPins 0x16) true] } := by
  refine ⟨?_, ?_, ?_, ?_, ?_, ?_, ?_, ?_, ?_⟩ <;> exact inv_of_ok (by decide)

theorem witness_step_next :
    (∃ t, step { three with pending := [.op (.cmd 0x16 [])] } = .next t) ∧
    (∃ t, step { readingState with pending := [.edge (streamPins 0) true] } = .next t) ∧
    three.cfg.argFits (cmdArg 0x16) = true ∧ cmdOp 0x16 ≠ 7 := ⟨⟨_, rfl⟩, ⟨_, rfl⟩, by decide, by decide⟩

/-- OperationFrame: an operation of each clause. -/
theorem witness_frame :
    (∃ t, exec (.decode 1 2 3) three = .next t) ∧ (∃ t, exec .isempty three = .next t) ∧
    (∃ t, exec .isfull three = .next t) ∧ (∃ t, exec (.read 2) three = .next t) ∧
    (∃ t, exec (.write 2 [1, 2]) three = .next t) ∧ (∃ t, exec .flush three = .next t) ∧
    (∀ h m l, (.read 2 : Instr) ≠ .decode h m l) :=
  ⟨⟨_, rfl⟩, ⟨_, rfl⟩, ⟨_, rfl⟩, ⟨_, rfl⟩, ⟨_, rfl⟩, ⟨_, rfl⟩, by simp⟩

/-! ## Witnesses: reset and lifecycle -/

/-- ResetMeetsInvariant: the narrowest and the widest legal parameters. -/
theorem witness_legal_parameters : (⟨some 1, some 1, .oneSlotWasted, .isTrue⟩ : Config).wf = true ∧
    (⟨none, none, .tailNextEqHead, .any⟩ : Config).wf = true ∧ Config.suggested.wf = true := by decide

/-- ResetWinsFromAnyState: as an action, and as an edge inside a burst. -/
theorem witness_reset : UnitFInv { readingState with pending := [.edge { quiet with rst := true } false] } ∧
    ({ readingState with pending := [.edge { quiet with rst := true } false] } : State).pending =
      .edge { quiet with rst := true } false :: [] ∧
    ({ readingState with pending := [.reset] } : State).pending = .reset :: [] :=
  ⟨unitFInv_of_ok (by decide), rfl, rfl⟩

/-- InitResult, TransitionTable: the largest and the smallest capacity, one above CAP_MAX, and 0; both policies. -/
theorem witness_init : three.cfg.capFits 65535 = true ∧ three.cfg.capFits 1 = true ∧
    (three.cfg.capFits 65536 = false) ∧ three.cfg.fullPolicy = .tailNextEqHead ∧
    fourWasted.cfg.fullPolicy = .oneSlotWasted ∧ fourWasted.cfg.capFits 1 = true := by decide

/-- DeinitResult, FlushResult, IsemptyResult: Deinitialized, and a buffer under each policy. -/
theorem witness_lifecycle : UnitFInv (away .any) ∧ (away .any).present = false ∧ UnitFInv three ∧ three.present = true ∧
    (wasted 1 none none []).present = true ∧ (wasted 1 none none []).cfg.fullPolicy = .oneSlotWasted ∧
    (wasted 1 none none []).capacity = 1 :=
  ⟨unitFInv_of_ok (by decide), rfl, unitFInv_of_ok (by decide), rfl, rfl, rfl, rfl⟩

/-! ## Witnesses: status -/

/-- IsfullResult: a state for each of its five cases. -/
theorem witness_isfull : three.present = true ∧ three.cfg.fullPolicy = .tailNextEqHead ∧
    fourWasted.present = true ∧ fourWasted.cfg.fullPolicy = .oneSlotWasted ∧
    (∀ a, (away a).present = false ∧ (away a).cfg.isfullAbsent = a) := by
  refine ⟨rfl, rfl, rfl, rfl, fun a => ⟨rfl, rfl⟩⟩

/-- FullByOccupancy, OccupancyFormula: Empty and non-empty, wrapped, both policies, capacity 1. -/
theorem witness_occupancy : UnitFInv wrapped ∧ wrapped.head = some 2 ∧ wrapped.tail = some 1 ∧ wrapped.occ = 4 ∧
    UnitFInv (wasted 4 (some 2) (some 0) (slots [40, 20, 30, 40])) ∧ UnitFInv (wasted 1 none none []) ∧ UnitFInv four :=
  ⟨unitFInv_of_ok (by decide), rfl, rfl, by decide, unitFInv_of_ok (by decide), unitFInv_of_ok (by decide),
    unitFInv_of_ok (by decide)⟩

/-! ## Witnesses: transfer -/

/-- WriteByteStep: full; not full and empty; not full with the tail in the last slot. -/
theorem witness_write_byte : UnitFInv wrapped ∧ wrapped.present = true ∧ wrapped.full = true ∧
    UnitFInv four ∧ four.full = false ∧ four.tail = none ∧ UnitFInv lastSlot ∧ lastSlot.full = false ∧
    lastSlot.tail = some (lastSlot.capacity - 1) :=
  ⟨unitFInv_of_ok (by decide), rfl, by decide, unitFInv_of_ok (by decide), by decide, rfl, unitFInv_of_ok (by decide),
    by decide, rfl⟩

/-- WriteResult, WriteEffect: nothing accepted (absent, full), accepted by an empty buffer, accepted with a wrap. -/
theorem witness_write : UnitFInv (away .any) ∧ UnitFInv wrapped ∧ UnitFInv four ∧ UnitFInv lastSlot ∧
    ([1, 2] : List Byte).length = 2 ∧
    min 2 ((away .any).usable - (away .any).occ) = 0 ∧ min 2 (wrapped.usable - wrapped.occ) = 0 ∧
    min 2 (four.usable - four.occ) = 2 ∧ four.head = none ∧ min 2 (lastSlot.usable - lastSlot.occ) = 2 ∧
    (∃ t, exec (.write 2 [1, 2]) (away .any) = .next t) ∧ (∃ t, exec (.write 2 [1, 2]) wrapped = .next t) ∧
    (∃ t, exec (.write 2 [1, 2]) four = .next t) ∧ (∃ t, exec (.write 2 [1, 2]) lastSlot = .next t) :=
  ⟨unitFInv_of_ok (by decide), unitFInv_of_ok (by decide), unitFInv_of_ok (by decide), unitFInv_of_ok (by decide), rfl,
    by decide, by decide, by decide, rfl, by decide, ⟨_, rfl⟩, ⟨_, rfl⟩, ⟨_, rfl⟩, ⟨_, rfl⟩⟩

/-- ReadByteStep: empty; the last byte; not the last, with the head in the last slot. -/
theorem witness_read_byte : UnitFInv four ∧ four.head = none ∧ UnitFInv lastSlot ∧ lastSlot.head = some 3 ∧
    lastSlot.tail = some 3 ∧ UnitFInv (ring 4 (some 3) (some 0) (slots [8, 2, 3, 7])) ∧
    (ring 4 (some 3) (some 0) (slots [8, 2, 3, 7])).tail ≠ some 3 :=
  ⟨unitFInv_of_ok (by decide), rfl, unitFInv_of_ok (by decide), rfl, rfl, unitFInv_of_ok (by decide), by decide⟩

/-- ReadResult: nothing delivered, a part, all. -/
theorem witness_read : UnitFInv (away .any) ∧ UnitFInv wrapped ∧ wrapped.head = some 2 ∧ min 0 wrapped.occ = 0 ∧
    0 < min 3 wrapped.occ ∧ min 3 wrapped.occ < wrapped.occ ∧ min 4 wrapped.occ = wrapped.occ :=
  ⟨unitFInv_of_ok (by decide), unitFInv_of_ok (by decide), rfl, by decide, by decide, by decide, by decide⟩

/-- WriteAsSingleWrites, ReadAsSingleReads, WriteThenReadRoundTrip (data as long as the usable capacity). -/
theorem witness_laws : UnitFInv four ∧ four.present = true ∧ four.head = none ∧
    ([1, 2, 3, 4] : List Byte).length ≤ four.usable ∧ UnitFInv fourWasted ∧ fourWasted.usable = 3 :=
  ⟨unitFInv_of_ok (by decide), rfl, rfl, by decide, unitFInv_of_ok (by decide), by decide⟩

/-- FifoOrderAndConservation, OnlyContentsObservable: operations of every kind that they allow. -/
theorem witness_runs : UnitFInv three ∧
    (∀ i ∈ [Instr.write 2 [1, 2], .read 1, .isempty, .isfull, .decode 1 2 3],
      Instr.keepsBuffer i = true ∧ WellFormed three.cfg i = true) ∧
    (∀ i ∈ [Instr.init 4, .deinit, .flush, .write 2 [1, 2], .read 1], WellFormed three.cfg i = true) :=
  ⟨unitFInv_of_ok (by decide), by decide, by decide⟩

/-- RestartAtSlotZero. -/
theorem witness_restart : UnitFInv wrapped ∧ wrapped.present = true ∧ 1 ≤ wrapped.usable ∧ wrapped.occ ≤ 4 :=
  ⟨unitFInv_of_ok (by decide), rfl, by decide, by decide⟩

/-- FreshBufferCapacity, under each policy; the smallest buffer under the second. -/
theorem witness_fresh : three.cfg.capFits 4 = true ∧ three.cfg.argFits 4 = true ∧
    three.cfg.fullPolicy = .tailNextEqHead ∧ ([1, 2, 3, 4] : List Byte).length = 4 ∧
    fourWasted.cfg.capFits 1 = true ∧ fourWasted.cfg.argFits 1 = true ∧ fourWasted.cfg.fullPolicy = .oneSlotWasted ∧
    ([] : List Byte).length = 1 - 1 := by decide

/-- TransitionTable: a state of each name, and the boundary counts of each row. -/
theorem witness_transitions :
    (away .any).classify = .deinitialized ∧ four.classify = .empty ∧ three.classify = .partiallyFilled ∧
    wrapped.classify = .full ∧ UnitFInv (away .any) ∧ UnitFInv four ∧ UnitFInv three ∧ UnitFInv wrapped ∧
    UnitFInv (wasted 1 none none []) ∧ (wasted 1 none none []).classify = .empty ∧
    min 2 (wasted 1 none none []).usable = 0 ∧ 0 < min 3 four.usable ∧ min 3 four.usable < four.usable ∧
    min 4 four.usable = four.usable ∧ 1 ≤ four.usable ∧ three.occ + 0 < three.usable ∧ three.usable ≤ three.occ + 1 ∧
    2 < three.occ ∧ three.occ ≤ 3 ∧ 3 < wrapped.occ ∧ wrapped.occ ≤ 4 :=
  ⟨by decide, by decide, by decide, by decide, unitFInv_of_ok (by decide), unitFInv_of_ok (by decide),
    unitFInv_of_ok (by decide), unitFInv_of_ok (by decide), unitFInv_of_ok (by decide), by decide, by decide, by decide,
    by decide, by decide, by decide, by decide, by decide, by decide, by decide, by decide, by decide⟩

/-- OnlyContentsObservable: the same contents at other slots, with other bytes around them. -/
theorem witness_observable : UnitFInv lastSlot ∧ UnitFInv (ring 4 (some 0) (some 0) (slots [7])) ∧
    lastSlot.cfg = (ring 4 (some 0) (some 0) (slots [7])).cfg ∧
    lastSlot.draws = (ring 4 (some 0) (some 0) (slots [7])).draws ∧
    lastSlot.present = (ring 4 (some 0) (some 0) (slots [7])).present ∧
    lastSlot.capacity = (ring 4 (some 0) (some 0) (slots [7])).capacity ∧
    lastSlot.contents = (ring 4 (some 0) (some 0) (slots [7])).contents ∧
    lastSlot.head ≠ (ring 4 (some 0) (some 0) (slots [7])).head :=
  ⟨unitFInv_of_ok (by decide), unitFInv_of_ok (by decide), rfl, rfl, rfl, rfl, by decide, by decide⟩

/-- OrderOfChecks, IllFormedWriteRefused. -/
theorem witness_checks : (away .isTrue).present = false ∧ ([1] : List Byte).length ≠ 2 := by decide

/-- StoreAccess: the last slot, the first that does not exist, and an absent store. -/
theorem witness_store : three.present = true ∧ 3 < three.capacity ∧ three.capacity ≤ 4 ∧ three.store.wf ∧
    (away .any).present = false := by decide

/-! ## Witnesses: unit D -/

/-- FieldForms: the bounds of each range. -/
theorem witness_field_ranges : (0x2F : Byte).toNat ≤ 0x2F ∧ 0x30 ≤ (0x30 : Byte).toNat ∧ (0x6F : Byte).toNat ≤ 0x6F ∧
    0x70 ≤ (0x70 : Byte).toNat ∧ (0xAF : Byte).toNat ≤ 0xAF ∧ 0xB0 ≤ (0xB0 : Byte).toNat ∧ (0xEF : Byte).toNat ≤ 0xEF ∧
    0xF0 ≤ (0xF0 : Byte).toNat := by decide

/-- InRangeBijection: the largest value and its bytes (X2). -/
theorem witness_in_range : 262143 < 2 ^ 18 ∧
    (∀ b ∈ [(0x6F : Byte), 0x6F, 0x6F], 0x30 ≤ b.toNat ∧ b.toNat ≤ 0x6F) ∧ (decTriple 0x6F 0x6F 0x6F).toNat = 262143 := by
  decide

/-- UnitsShareNothing: unit D inside a burst, and an operation of unit F. -/
theorem witness_units : readingState.burst.phase ≠ .idle ∧
    ({ readingState with pending := [.op (.dec 0)] } : State).pending = .op (.dec 0) :: [] ∧
    (∀ h m l, (.read 2 : Instr) ≠ .decode h m l) ∧ (∃ t, exec (.read 2) three = .next t) :=
  ⟨by decide, rfl, by simp, ⟨_, rfl⟩⟩

/-! ## Witnesses: ports -/

/-- StatusOutputs: a sample, and an edge that answers a next state. -/
theorem witness_status : ({ three with pending := [.sample] } : State).pending = .sample :: [] ∧
    ({ three with pending := [.edge quiet true] } : State).pending = .edge quiet true :: [] ∧
    (∃ t, step { three with pending := [.edge quiet true] } = .next t) := ⟨rfl, rfl, ⟨_, rfl⟩⟩

/-- CommandNotTakenWhileBusy. -/
theorem witness_busy : writingState.burst.phase ≠ .idle ∧
    ({ writingState with pending := [.op (.cmd 3 [])] } : State).pending = .op (.cmd 3 []) :: [] ∧
    (∃ o, outputPins true writingState = .ok o) := ⟨by decide, rfl, ⟨_, rfl⟩⟩

/-- ResponseLastsOneCycle. -/
theorem witness_response : Inv respondingState ∧ respondingState.burst.phase = .responding ∧ quiet.rst = false :=
  ⟨inv_of_ok (by decide), rfl, rfl⟩

/-- BurstAcceptance: the largest count. -/
theorem witness_acceptance : UnitFInv three ∧ three.burst.phase = .idle ∧ three.cfg.argFits 65535 = true ∧
    (commandPins 0x7FFFD).rst = false ∧ (commandPins 0x7FFFD).cmdValid = true ∧ (commandPins 0x7FFFD).cmd = 65535 * 8 + 5 ∧
    (commandPins 0x7FFFE).cmd = 65535 * 8 + 6 := ⟨unitFInv_of_ok (by decide), rfl, by decide, rfl, rfl, rfl, rfl⟩

/-- The three refinements: WRITE 2 that fills `three`, READ 2, ISFULL, each from the edge that takes the command to its
response, with a cycle of no progress on the way. -/
theorem witness_port_write : Inv three ∧ three.burst.phase = .idle ∧ three.cfg.argFits 2 = true ∧
    ([40, 50] : List Byte).length = 2 ∧ ([40, 50] : List Byte).take ([40] : List Byte).length = [40] ∧ (∃ s₁, clockEdge (commandPins (cmdWord .write 2)) false three = .next s₁ ∧
    (∀ e ∈ [(quiet, false), (streamPins 40, true), (streamPins 50, true)], e.1.rst = false) ∧
    ∃ t, runUntilResponse [(quiet, false), (streamPins 40, true), (streamPins 50, true)] s₁ = some ([40], [], t)) :=
  ⟨inv_of_ok (by decide), rfl, by decide, rfl, rfl, _, rfl, by decide, _, rfl⟩

theorem witness_port_read : Inv three ∧ three.burst.phase = .idle ∧ three.cfg.argFits 2 = true ∧ ∃ s₁, clockEdge (commandPins (cmdWord .read 2)) false three = .next s₁ ∧
    ∃ t, runUntilResponse [(quiet, false), (streamPins 0, true), (streamPins 0, true), (quiet, true)] s₁ =
      some ([], [10, 20], t) := ⟨inv_of_ok (by decide), rfl, by decide, _, rfl, _, rfl⟩

theorem witness_port_command : Inv wrapped ∧ wrapped.burst.phase = .idle ∧ Instr.streamless .isfull = true ∧
    decode wrapped.cfg (.cmd (commandPins 4).cmd []) = .ok .isfull ∧ wrapped.fullIsDraw = false ∧
    ∃ s₁, clockEdge (commandPins 4) false wrapped = .next s₁ ∧
      ∃ t, runUntilResponse [(quiet, false), (quiet, true)] s₁ = some ([], [], t) :=
  ⟨inv_of_ok (by decide), rfl, rfl, rfl, rfl, _, rfl, _, rfl⟩

/-- PortOperationEnds. -/
theorem witness_port_ends : Inv readingState ∧ readingState.burst.phase ≠ .idle ∧
    (∀ e ∈ [(streamPins 0, true), (streamPins 0, true)],
      e.1.rst = false ∧ e.1.wrValid = true ∧ e.1.rdReady = true ∧ e.2 = true) ∧
    readingState.burst.count - readingState.burst.index + 1 ≤ [(streamPins 0, true), (streamPins 0, true)].length :=
  ⟨inv_of_ok (by decide), by decide, by decide, by decide⟩

end Sys2Proof.Tests
end

/-! SUPPORT. The scope rules of 00_scope: what a served transaction does, that operations and steps complete from states that
meet the invariant, and, with no invariant assumed, what a step that answers a next state has done to the parameters. -/

namespace Sys2Proof.Machine

open Sys2Proof

/-! ## A transaction that decodes -/

theorem runPresented_of_decode {s : State} {p : Presented} {i : Instr} (h : decode s.cfg p = .ok i) :
    runPresented p s = exec i s := by
  simp [runPresented, h]

theorem serveOp_dec (word : DecIn) (s : State) : serveOp (.dec word) s = runPresented (.dec word) s := rfl

theorem serveOp_cmd_busy {s : State} (h : s.burst.phase ≠ .idle) (word : Nat) (data : List Byte) :
    serveOp (.cmd word data) s = .next s := by
  simp [serveOp, Burst.busy, h]

theorem serveOp_cmd_idle {s : State} (h : s.burst.phase = .idle) (word : Nat) (data : List Byte) :
    serveOp (.cmd word data) s = runPresented (.cmd word data) s := by
  simp [serveOp, Burst.busy, h]

/-- The port that `p` is presented at can take it: unit D always can (43_decoder R175), the command port when idle. -/
theorem serveOp_of_decode {s : State} {p : Presented} {i : Instr} (h : decode s.cfg p = .ok i)
    (port : s.burst.phase = .idle ∨ ∃ w, p = .dec w) : serveOp p s = exec i s := by
  rw [← runPresented_of_decode h]
  cases p with
  | dec word => exact serveOp_dec word s
  | cmd word data => exact serveOp_cmd_idle (by simpa using port) word data

/-- Settles O7: the served action is a transaction that its port takes and that decodes. -/
theorem stepRunsDecodedOperation : Obligations.StepRunsDecodedOperation := by
  intro s p rest i hpending hdecode hport
  rw [step_cons hpending]
  exact serveOp_of_decode (s := { s with pending := rest }) hdecode hport

/-! ## Operations complete -/

theorem execInit_completes {s : State} {c : Nat} (hw : s.cfg.argFits c = true) :
    ∃ t, execInit c s = .next t ∧ UnitFInv t := by
  unfold execInit
  split
  case isTrue => exact ⟨_, rfl, (UnitFInv.absentState s).respondState _ _ _⟩
  case isFalse h =>
    obtain ⟨hc, hcap⟩ : c ≠ 0 ∧ s.cfg.capFits c = true := by simpa using h
    exact ⟨_, rfl, (UnitFInv.createdState s (by omega) hcap hw).respondState _ _ _⟩

section
variable {s : State} (inv : UnitFInv s)
include inv

theorem UnitFInv.execWrite_completes (data : List Byte) :
    ∃ t, execWrite data.length data s = .next t ∧ UnitFInv t := by
  cases hp : s.present with
  | false => exact ⟨_, execWrite_absent hp data, inv.respondState _ _ _⟩
  | true =>
    have accepted := inv.pushedAll hp (bs := data.take (s.usable - s.occ)) (by simp)
    exact ⟨_, inv.execWrite_eq hp data, accepted.1.respondState _ _ _⟩

theorem UnitFInv.execRead_completes (n : Nat) : ∃ t, execRead n s = .next t ∧ UnitFInv t := by
  cases hp : s.present with
  | false => exact ⟨_, execRead_absent hp n, inv.respondState _ _ _⟩
  | true =>
    have delivered := inv.poppedAll (n := min n s.occ) (by omega)
    exact ⟨_, inv.execRead_eq hp n, delivered.1.respondState _ _ _⟩

theorem UnitFInv.exec_completes {i : Instr} (hw : WellFormed s.cfg i = true) :
    ∃ t, exec i s = .next t ∧ UnitFInv t := by
  cases i with
  | init c => exact execInit_completes hw
  | deinit => exact ⟨_, rfl, (UnitFInv.absentState s).respondState _ _ _⟩
  | flush => exact ⟨_, rfl, inv.flushedState.respondState _ _ _⟩
  | isempty => exact ⟨_, rfl, inv.respondState _ _ _⟩
  | isfull => exact ⟨_, rfl, inv.afterFullState.respondState _ _ _⟩
  | write count data =>
    obtain ⟨-, rfl⟩ : s.cfg.argFits count = true ∧ data.length = count := by simpa [WellFormed] using hw
    exact inv.execWrite_completes data
  | read count => exact inv.execRead_completes count
  | decode h m l => exact ⟨_, rfl, inv.congr rfl rfl⟩

end

/-- Settles O8, by cases on the operation. -/
theorem everyOperationCompletes : Obligations.EveryOperationCompletes :=
  fun _ _ inv hw => inv.exec_completes hw

/-! ## Commands at the pins -/

theorem decodeCmd_wellFormed {cfg : Config} {word : Nat} {data : List Byte} {i : Instr}
    (h : decodeCmd cfg word data = .ok i) : WellFormed cfg i = true := by
  unfold decodeCmd at h
  split at h
  case isFalse => cases h
  case isTrue hfits =>
    cases hop : Op.ofCode (cmdOp word) with
    | none => simp [hop] at h
    | some op =>
      cases op <;> simp only [hop] at h
      case write =>
        split at h <;> cases h
        simp_all [WellFormed]
      all_goals
        cases h
        simp [WellFormed, hfits]

/-- What the decoder yields, the encoding can carry (30_encoding R71, R79). -/
theorem decode_wellFormed {cfg : Config} {p : Presented} {i : Instr} (h : decode cfg p = .ok i) :
    WellFormed cfg i = true := by
  cases p with
  | cmd word data => exact decodeCmd_wellFormed h
  | dec word => cases h; rfl

/-- Every operation code but the reserved one is an operation's (30_encoding R72, R74). -/
theorem ofCode_cmdOp_isSome {word : Nat} (h : cmdOp word ≠ 7) : ∃ op, Op.ofCode (cmdOp word) = some op := by
  have hlt : cmdOp word < 8 := Nat.mod_lt _ (by omega)
  generalize cmdOp word = n at h hlt
  interval_cases n <;> simp_all [Op.ofCode]

/-- The burst bookkeeping right after a command was taken at the pins (30_encoding R87; 10_state R36). -/
def Burst.accepted (arg : Nat) : Op → Burst
  | .init => ⟨.command (.init arg), 0, 0, []⟩
  | .deinit => ⟨.command .deinit, 0, 0, []⟩
  | .flush => ⟨.command .flush, 0, 0, []⟩
  | .isempty => ⟨.command .isempty, 0, 0, []⟩
  | .isfull => ⟨.command .isfull, 0, 0, []⟩
  | .write => ⟨.writing, 0, arg, []⟩
  | .read => ⟨.reading, 0, arg, []⟩

theorem acceptCommand_of_op {s : State} {word : Nat} {op : Op} (ha : s.cfg.argFits (cmdArg word) = true)
    (hop : Op.ofCode (cmdOp word) = some op) :
    acceptCommand word s = .next { s with burst := Burst.accepted (cmdArg word) op } := by
  cases op <;> simp [acceptCommand, ha, hop, Burst.accepted]

/-- A command that is taken at the pins has an operation, and only the burst bookkeeping changes. -/
theorem acceptCommand_next {s t : State} {word : Nat} (h : acceptCommand word s = .next t) :
    ∃ op, Op.ofCode (cmdOp word) = some op ∧ s.cfg.argFits (cmdArg word) = true ∧
      t = { s with burst := Burst.accepted (cmdArg word) op } := by
  cases ha : s.cfg.argFits (cmdArg word) with
  | false => simp [acceptCommand, ha] at h
  | true =>
    cases hop : Op.ofCode (cmdOp word) with
    | none => simp [acceptCommand, ha, hop] at h
    | some op =>
      rw [acceptCommand_of_op ha hop] at h
      cases h
      exact ⟨op, rfl, rfl, rfl⟩

/-! ## The ports complete -/

section
variable {s : State} (inv : UnitFInv s)
include inv

theorem UnitFInv.performCommand_completes {i : Instr} (hw : WellFormed s.cfg i = true) :
    ∃ t, performCommand i s = .next t := by
  obtain ⟨t, ht, -⟩ := inv.exec_completes hw
  exact ⟨_, by rw [performCommand, ht]⟩

/-- The byte that a WRITE burst wants is stored: the buffer is present and not full. -/
theorem UnitFInv.writeCycle_completes (p : PinsIn) (advance : Bool) : ∃ t, writeCycle p advance s = .next t := by
  unfold writeCycle
  split
  case isTrue hwants =>
    obtain ⟨⟨hp, -⟩, hf⟩ : (s.present = true ∧ s.burst.index < s.burst.count) ∧ s.full = false := by
      simpa [State.wantsByte] using hwants
    rw [inv.push1_eq hp, hf]
    split <;> exact ⟨_, rfl⟩
  case isFalse => split <;> exact ⟨_, rfl⟩

/-- The byte that a READ burst has is delivered: the head is a slot that holds a byte. -/
theorem UnitFInv.readCycle_completes (p : PinsIn) (advance : Bool) : ∃ t, readCycle p advance s = .next t := by
  unfold readCycle
  split
  case isTrue hhas =>
    obtain ⟨h, hh⟩ : ∃ h, s.head = some h := by
      cases hhead : s.head with
      | none => simp [State.hasByte, State.empty, hhead] at hhas
      | some h => exact ⟨h, rfl⟩
    obtain ⟨b, hb⟩ := inv.head_byte hh
    rw [inv.pop1_some hh hb]
    split <;> exact ⟨_, rfl⟩
  case isFalse => split <;> exact ⟨_, rfl⟩

/-- One edge with `rst` low completes: a command on the pins is looked at only when the port is idle, and a command in progress
is a well-formed operation. -/
theorem UnitFInv.portCycle_completes {p : PinsIn} (advance : Bool) (hb : s.burstOk = true)
    (hcmd : p.cmdValid = true → s.cfg.argFits (cmdArg p.cmd) = true ∧ cmdOp p.cmd ≠ 7) :
    ∃ t, portCycle p advance s = .next t := by
  cases hph : s.burst.phase with
  | idle =>
    rw [portCycle_idle hph]
    split
    case isTrue hv =>
      obtain ⟨ha, hne⟩ := hcmd hv
      obtain ⟨op, hop⟩ := ofCode_cmdOp_isSome hne
      exact ⟨_, acceptCommand_of_op ha hop⟩
    case isFalse => exact ⟨_, rfl⟩
  | command i =>
    rw [portCycle_command hph]
    obtain ⟨-, hw⟩ : _ ∧ WellFormed s.cfg i = true := by simpa [State.burstOk, hph] using hb
    split
    · exact inv.performCommand_completes hw
    · exact ⟨_, rfl⟩
  | writing => rw [portCycle_writing hph]; exact inv.writeCycle_completes p advance
  | reading => rw [portCycle_reading hph]; exact inv.readCycle_completes p advance
  | responding => exact ⟨_, portCycle_responding hph p advance⟩

theorem UnitFInv.clockEdge_completes {p : PinsIn} (advance : Bool) (hb : s.burstOk = true)
    (hcmd : p.cmdValid = true → s.cfg.argFits (cmdArg p.cmd) = true ∧ cmdOp p.cmd ≠ 7) :
    ∃ t, clockEdge p advance s = .next t := by
  obtain ⟨o, -, hedge⟩ := inv.clockEdge_eq p advance
  rw [hedge]
  split
  · exact ⟨_, rfl⟩
  · have sampled : UnitFInv { s.afterFull with pins := some o } := inv.congr rfl rfl
    exact sampled.portCycle_completes advance hb hcmd

theorem UnitFInv.serveOp_completes {p : Presented} {i : Instr} (hd : decode s.cfg p = .ok i) :
    ∃ t, serveOp p s = .next t := by
  obtain ⟨t, ht, -⟩ := inv.exec_completes (decode_wellFormed hd)
  cases p with
  | dec word => exact ⟨t, by rw [serveOp_of_decode hd (.inr ⟨word, rfl⟩), ht]⟩
  | cmd word data =>
    by_cases hidle : s.burst.phase = .idle
    · exact ⟨t, by rw [serveOp_of_decode hd (.inl hidle), ht]⟩
    · exact ⟨s, serveOp_cmd_busy hidle word data⟩

end

/-- Settles O9, by cases on the host's next action. -/
theorem stepCompletes : Obligations.StepCompletes := by
  intro s inv hop hedge
  cases hpending : s.pending with
  | nil => exact ⟨s, step_nil hpending⟩
  | cons r rest =>
    rw [step_cons hpending]
    have unitF : UnitFInv { s with pending := rest } := inv.unitF.congr rfl rfl
    cases r with
    | op p =>
      obtain ⟨i, hd⟩ := hop p rest hpending
      exact unitF.serveOp_completes hd
    | reset => exact ⟨_, rfl⟩
    | sample => exact ⟨_, rfl⟩
    | edge p advance => exact unitF.clockEdge_completes advance inv.burst (hedge p advance rest hpending)

/-! ## What an operation that answers has done, from any state -/

/-- A store that succeeds changes the store only. -/
theorem memWrite_ok {s t : State} {i : Nat} {b : Byte} (h : memWrite i b s = .ok t) :
    t = { s with store := s.store.write i b } := by
  unfold memWrite at h
  split at h <;> cases h
  rfl

/-- A load that succeeds changes nothing but the draw counter, which goes up if at all. -/
theorem memRead_ok {s t : State} {i : Nat} {b : Byte} (h : memRead i s = .ok (b, t)) :
    ∃ d, s.draws ≤ d ∧ t = { s with draws := d } := by
  unfold memRead at h
  split at h
  · split at h <;> cases h
    · exact ⟨s.draws, le_rfl, rfl⟩
    · exact ⟨s.draws + 1, by omega, rfl⟩
  · cases h

/-- An accepted byte leaves `s.pushed b`, whether or not the invariant holds. -/
theorem push1_accepted {s t : State} {b : Byte} (h : push1 b s = .ok (some t)) : t = s.pushed b := by
  unfold push1 at h
  split at h
  · cases h
  · split at h <;> cases h
    rename_i hm
    rw [memWrite_ok hm]
    rfl

/-- A delivered byte leaves `s.popped` but for the draw counter, whether or not the invariant holds. -/
theorem pop1_delivered {s t : State} {b : Byte} (h : pop1 s = .ok (some (b, t))) :
    ∃ d, s.draws ≤ d ∧ t = { s.popped with draws := d } := by
  unfold pop1 at h
  split at h
  · cases h
  · rename_i k hk
    split at h <;> cases h
    rename_i hm
    obtain ⟨d, hd, rfl⟩ := memRead_ok hm
    refine ⟨d, hd, ?_⟩
    unfold State.popped
    split <;> simp [State.flushed, hk]

/-- The loop of WRITE leaves the state of its accepted bytes, whether or not the invariant holds. -/
theorem pushAll_ok {data : List Byte} {s t : State} {n : Nat} (h : pushAll data s = .ok (n, t)) :
    t = State.pushedAll (data.take n) s := by
  induction data generalizing s n with
  | nil => cases h; rfl
  | cons b bs ih =>
    unfold pushAll at h
    split at h
    · cases h
    · cases h; rfl
    · rename_i u hu
      split at h <;> cases h
      rename_i hrest
      rw [ih hrest, push1_accepted hu]
      rfl

/-- The read byte step does not look at the draw counter. -/
theorem State.popped_withDraws (s : State) (d : Nat) :
    ({ s with draws := d } : State).popped = { s.popped with draws := d } := by
  simp [State.popped_eq]

theorem State.poppedAll_withDraws (n : Nat) (s : State) (d : Nat) :
    State.poppedAll n { s with draws := d } = { State.poppedAll n s with draws := d } := by
  induction n generalizing s with
  | zero => rfl
  | succ n ih => simp only [State.poppedAll_succ, State.popped_withDraws, ih]

/-- The loop of READ leaves the state of its delivered bytes but for the draw counter, whether or not the invariant holds. -/
theorem popAll_ok {n : Nat} {s t : State} {bs : List Byte} (h : popAll n s = .ok (bs, t)) :
    ∃ d, s.draws ≤ d ∧ t = { State.poppedAll bs.length s with draws := d } := by
  induction n generalizing s bs with
  | zero => cases h; exact ⟨_, le_rfl, rfl⟩
  | succ n ih =>
    unfold popAll at h
    split at h
    · cases h
    · cases h; exact ⟨_, le_rfl, rfl⟩
    · rename_i b u hu
      split at h <;> cases h
      rename_i bs hrest
      obtain ⟨d, hd, rfl⟩ := pop1_delivered hu
      obtain ⟨e, he, rfl⟩ := ih hrest
      exact ⟨e, le_trans hd he, by rw [State.poppedAll_withDraws]; rfl⟩

theorem execWrite_next {s t : State} {count : Nat} {data : List Byte} (h : execWrite count data s = .next t) :
    data.length = count ∧
      ((s.present = false ∧ t = s.respond count [] []) ∨
        (s.present = true ∧
          ∃ a, t = (State.pushedAll (data.take a) s).respond (count - a) (data.take a) [])) := by
  unfold execWrite at h
  split at h
  case isFalse => cases h
  case isTrue hlen =>
    refine ⟨hlen, ?_⟩
    split at h
    case isTrue hp =>
      split at h <;> cases h
      rename_i hpush
      exact .inr ⟨hp, _, by rw [pushAll_ok hpush]⟩
    case isFalse hp =>
      cases h
      exact .inl ⟨by simpa using hp, rfl⟩

theorem execRead_next {s t : State} {count : Nat} (h : execRead count s = .next t) :
    (s.present = false ∧ t = s.respond count [] []) ∨
      (s.present = true ∧ ∃ bs d, s.draws ≤ d ∧
        t = ({ State.poppedAll bs.length s with draws := d } : State).respond (count - bs.length) [] bs) := by
  unfold execRead at h
  split at h
  case isTrue hp =>
    split at h <;> cases h
    rename_i bs u hpop
    obtain ⟨d, hd, rfl⟩ := popAll_ok hpop
    exact .inr ⟨hp, bs, d, hd, rfl⟩
  case isFalse hp =>
    cases h
    exact .inl ⟨by simpa using hp, rfl⟩

/-! ## What an edge that answers has done, from any state -/

theorem performCommand_next {s t : State} {i : Instr} (h : performCommand i s = .next t) :
    ∃ u, exec i s = .next u ∧ t = { u with burst := Burst.answer } := by
  unfold performCommand at h
  split at h <;> cases h
  exact ⟨_, ‹_›, rfl⟩

/-- A cycle of a WRITE burst takes no byte, takes one, or ends the burst. -/
theorem writeCycle_next {p : PinsIn} {advance : Bool} {s t : State} (h : writeCycle p advance s = .next t) :
    t = s ∨
    (s.wantsByte = true ∧ advance = true ∧ p.wrValid = true ∧ t = { s.pushed p.wrData with
      burst := ⟨.writing, s.burst.index + 1, s.burst.count, s.burst.stream ++ [p.wrData]⟩ }) ∨
    (s.wantsByte = false ∧ advance = true ∧ t = { s.respond (s.burst.count - s.burst.index) s.burst.stream [] with
      burst := Burst.answer }) := by
  unfold writeCycle at h
  split at h
  case isTrue hwants =>
    split at h
    case isTrue hgo =>
      obtain ⟨ha, hv⟩ : advance = true ∧ p.wrValid = true := by simpa using hgo
      split at h <;> cases h
      · exact .inl rfl
      · rename_i hpush
        exact .inr (.inl ⟨hwants, ha, hv, by rw [push1_accepted hpush]⟩)
    case isFalse => cases h; exact .inl rfl
  case isFalse hwants =>
    split at h <;> cases h
    case isTrue ha => exact .inr (.inr ⟨by simpa using hwants, ha, rfl⟩)
    case isFalse => exact .inl rfl

/-- A cycle of a READ burst delivers no byte, delivers one, or ends the burst. -/
theorem readCycle_next {p : PinsIn} {advance : Bool} {s t : State} (h : readCycle p advance s = .next t) :
    t = s ∨
    (s.hasByte = true ∧ advance = true ∧ p.rdReady = true ∧ ∃ b d, s.draws ≤ d ∧ t = { s.popped with
      draws := d, burst := ⟨.reading, s.burst.index + 1, s.burst.count, s.burst.stream ++ [b]⟩ }) ∨
    (s.hasByte = false ∧ advance = true ∧ t = { s.respond (s.burst.count - s.burst.index) [] s.burst.stream with
      burst := Burst.answer }) := by
  unfold readCycle at h
  split at h
  case isTrue hhas =>
    split at h
    case isTrue hgo =>
      obtain ⟨ha, hr⟩ : advance = true ∧ p.rdReady = true := by simpa using hgo
      split at h <;> cases h
      · exact .inl rfl
      · rename_i b u hpop
        obtain ⟨d, hd, rfl⟩ := pop1_delivered hpop
        exact .inr (.inl ⟨hhas, ha, hr, b, d, hd, rfl⟩)
    case isFalse => cases h; exact .inl rfl
  case isFalse hhas =>
    split at h <;> cases h
    case isTrue ha => exact .inr (.inr ⟨by simpa using hhas, ha, rfl⟩)
    case isFalse => exact .inl rfl

/-- An edge samples the pins, and then resets the block or lets the port work. -/
theorem clockEdge_next {p : PinsIn} {advance : Bool} {s t : State} (h : clockEdge p advance s = .next t) :
    ∃ o, outputPins advance s = .ok o ∧
      ((p.rst = true ∧ t = resetBlock { s.afterFull with pins := some o }) ∨
        (p.rst = false ∧ portCycle p advance { s.afterFull with pins := some o } = .next t)) := by
  unfold clockEdge at h
  split at h
  · cases h
  · rename_i o ho
    refine ⟨o, ho, ?_⟩
    split at h
    case isTrue hr => cases h; exact .inl ⟨hr, rfl⟩
    case isFalse hr => exact .inr ⟨by simpa using hr, h⟩

/-! ## The parameters and the draw counter -/

/-- From `s` to `t` the parameters stay and no drawn free value is taken back (00_scope R7, R14). -/
def State.KeepsParameters (s t : State) : Prop := t.cfg = s.cfg ∧ s.draws ≤ t.draws

theorem State.KeepsParameters.refl (s : State) : s.KeepsParameters s := ⟨rfl, le_rfl⟩

theorem State.KeepsParameters.trans {s t u : State} (h : s.KeepsParameters t) (h' : t.KeepsParameters u) :
    s.KeepsParameters u := ⟨h'.1.trans h.1, h.2.trans h'.2⟩

/-- An evaluation of `full(S)` draws at most one free value. -/
theorem State.keepsParameters_afterFull (s : State) : s.KeepsParameters s.afterFull := by
  refine ⟨rfl, ?_⟩
  rw [State.afterFull_draws]
  split <;> omega

theorem execInit_keepsParameters {s t : State} {c : Nat} (h : execInit c s = .next t) : s.KeepsParameters t := by
  unfold execInit at h
  split at h <;> cases h <;> exact ⟨rfl, le_rfl⟩

theorem execWrite_keepsParameters {s t : State} {count : Nat} {data : List Byte}
    (h : execWrite count data s = .next t) : s.KeepsParameters t := by
  obtain ⟨-, ⟨-, rfl⟩ | ⟨-, a, rfl⟩⟩ := execWrite_next h
  · exact ⟨rfl, le_rfl⟩
  · exact ⟨by simp, by simp⟩

theorem execRead_keepsParameters {s t : State} {count : Nat} (h : execRead count s = .next t) :
    s.KeepsParameters t := by
  obtain ⟨-, rfl⟩ | ⟨-, bs, d, hd, rfl⟩ := execRead_next h
  · exact ⟨rfl, le_rfl⟩
  · exact ⟨by simp, hd⟩

theorem exec_keepsParameters {i : Instr} {s t : State} (h : exec i s = .next t) : s.KeepsParameters t := by
  cases i with
  | init c => exact execInit_keepsParameters h
  | deinit => cases h; exact ⟨rfl, le_rfl⟩
  | flush => cases h; exact ⟨rfl, le_rfl⟩
  | isempty => cases h; exact ⟨rfl, le_rfl⟩
  | isfull => cases h; exact s.keepsParameters_afterFull
  | write count data => exact execWrite_keepsParameters h
  | read count => exact execRead_keepsParameters h
  | decode byteHigh byteMid byteLow => cases h; exact ⟨rfl, le_rfl⟩

theorem writeCycle_keepsParameters {p : PinsIn} {advance : Bool} {s t : State}
    (h : writeCycle p advance s = .next t) : s.KeepsParameters t := by
  obtain rfl | ⟨-, -, -, rfl⟩ | ⟨-, -, rfl⟩ := writeCycle_next h <;> exact ⟨rfl, le_rfl⟩

theorem readCycle_keepsParameters {p : PinsIn} {advance : Bool} {s t : State}
    (h : readCycle p advance s = .next t) : s.KeepsParameters t := by
  obtain rfl | ⟨-, -, -, b, d, hd, rfl⟩ | ⟨-, -, rfl⟩ := readCycle_next h
  · exact ⟨rfl, le_rfl⟩
  · exact ⟨s.popped_cfg, hd⟩
  · exact ⟨rfl, le_rfl⟩

theorem portCycle_keepsParameters {p : PinsIn} {advance : Bool} {s t : State}
    (h : portCycle p advance s = .next t) : s.KeepsParameters t := by
  cases hph : s.burst.phase with
  | idle =>
    rw [portCycle_idle hph] at h
    split at h
    · obtain ⟨op, -, -, rfl⟩ := acceptCommand_next h
      exact ⟨rfl, le_rfl⟩
    · cases h; exact .refl s
  | command i =>
    rw [portCycle_command hph] at h
    split at h
    · obtain ⟨u, hu, rfl⟩ := performCommand_next h
      obtain ⟨hcfg, hdraws⟩ := exec_keepsParameters hu
      exact ⟨hcfg, hdraws⟩
    · cases h; exact .refl s
  | writing => rw [portCycle_writing hph] at h; exact writeCycle_keepsParameters h
  | reading => rw [portCycle_reading hph] at h; exact readCycle_keepsParameters h
  | responding => rw [portCycle_responding hph] at h; cases h; exact ⟨rfl, le_rfl⟩

theorem clockEdge_keepsParameters {p : PinsIn} {advance : Bool} {s t : State}
    (h : clockEdge p advance s = .next t) : s.KeepsParameters t := by
  obtain ⟨o, -, hafter⟩ := clockEdge_next h
  have sampled : s.KeepsParameters { s.afterFull with pins := some o } := s.keepsParameters_afterFull
  obtain ⟨-, rfl⟩ | ⟨-, hport⟩ := hafter
  · exact sampled
  · exact sampled.trans (portCycle_keepsParameters hport)

theorem runPresented_keepsParameters {p : Presented} {s t : State} (h : runPresented p s = .next t) :
    s.KeepsParameters t := by
  unfold runPresented at h
  split at h
  · exact exec_keepsParameters h
  · cases h

theorem serveOp_keepsParameters {p : Presented} {s t : State} (h : serveOp p s = .next t) : s.KeepsParameters t := by
  cases p with
  | dec word => exact runPresented_keepsParameters ((serveOp_dec word s).symm.trans h)
  | cmd word data =>
    by_cases hidle : s.burst.phase = .idle
    · rw [serveOp_cmd_idle hidle] at h
      exact runPresented_keepsParameters h
    · rw [serveOp_cmd_busy hidle] at h
      cases h
      exact .refl s

theorem serve_keepsParameters {r : Request} {s t : State} (h : serve r s = .next t) : s.KeepsParameters t := by
  cases r with
  | op p => exact serveOp_keepsParameters h
  | reset => cases h; exact ⟨rfl, le_rfl⟩
  | sample => cases h; exact s.keepsParameters_afterFull
  | edge p advance => exact clockEdge_keepsParameters h

/-- Settles O13, by cases on the host's next action. -/
theorem stepKeepsParameters : Obligations.StepKeepsParameters := by
  intro s t h
  cases hpending : s.pending with
  | nil =>
    rw [step_nil hpending] at h
    cases h
    exact ⟨rfl, le_rfl⟩
  | cons r rest =>
    rw [step_cons hpending] at h
    obtain ⟨hcfg, hdraws⟩ := serve_keepsParameters h
    exact ⟨hcfg, hdraws⟩

end Sys2Proof.Machine

/-! SUPPORT. The state rules of 10_state: what operations leave unchanged (R22, R25), the invariant of the whole machine under
every action of the host (R26, R28, R36), the occupancy (R27), reset (R37), and what of unit F can be observed (R30). -/

namespace Sys2Proof.Machine

open Sys2Proof

/-! ## Frames of the operations -/

/-- WRITE changes the indices, the store and the response only (42_transfer R141). -/
theorem execWrite_frame {s t : State} {count : Nat} {data : List Byte} (h : execWrite count data s = .next t) :
    t = { s with head := t.head, tail := t.tail, store := t.store, response := t.response } := by
  obtain ⟨-, ⟨-, rfl⟩ | ⟨-, a, rfl⟩⟩ := execWrite_next h
  · rfl
  · rw [State.pushedAll_frame]; rfl

/-- READ changes the indices, the response and the draw counter only (42_transfer R151). -/
theorem execRead_frame {s t : State} {count : Nat} (h : execRead count s = .next t) :
    t = { s with head := t.head, tail := t.tail, response := t.response, draws := t.draws } := by
  obtain ⟨-, rfl⟩ | ⟨-, bs, d, -, rfl⟩ := execRead_next h
  · rfl
  · rw [State.poppedAll_frame]; rfl

theorem execInit_next {s t : State} {c : Nat} (h : execInit c s = .next t) :
    t = s.absent.respond 1 [] [] ∨ t = (s.created c).respond 0 [] [] := by
  unfold execInit at h
  split at h <;> cases h
  · exact .inl rfl
  · exact .inr rfl

/-- An operation of unit F changes unit F, the response and the draw counter only (20_memory R57; 43_decoder R175). -/
theorem exec_frame {i : Instr} {s t : State} (h : exec i s = .next t) (hd : ∀ hi mid lo, i ≠ .decode hi mid lo) :
    t = { s with
      present := t.present, capacity := t.capacity, head := t.head, tail := t.tail, store := t.store
      response := t.response, draws := t.draws } := by
  cases i with
  | init c => obtain rfl | rfl := execInit_next h <;> rfl
  | deinit => cases h; rfl
  | flush => cases h; rfl
  | isempty => cases h; rfl
  | isfull => cases h; rfl
  | write count data => rw [execWrite_frame h]
  | read count => rw [execRead_frame h]
  | decode hi mid lo => exact absurd rfl (hd hi mid lo)

/-- No operation changes the parameters or the host interface but its response and DEC_OUT. -/
theorem exec_hostFrame {i : Instr} {s t : State} (h : exec i s = .next t) :
    t.cfg = s.cfg ∧ t.burst = s.burst ∧ t.pending = s.pending ∧ t.status = s.status ∧ t.pins = s.pins := by
  by_cases hd : ∃ hi mid lo, i = .decode hi mid lo
  · obtain ⟨hi, mid, lo, rfl⟩ := hd
    cases h
    exact ⟨rfl, rfl, rfl, rfl, rfl⟩
  · rw [exec_frame h (by simpa using hd)]
    exact ⟨rfl, rfl, rfl, rfl, rfl⟩

/-- Settles O14, clause by clause from the frames of the operations. -/
theorem operationFrame : Obligations.OperationFrame := by
  intro i s t h
  obtain ⟨hcfg, hburst, hpending, hstatus, hpins⟩ := exec_hostFrame h
  refine ⟨hcfg, hburst, hpending, hstatus, hpins, fun hd => ?_, ?decode, ?queries, ?read, ?write, ?flush⟩
  · rw [exec_frame h hd]
  case decode => rintro ⟨hi, mid, lo, rfl⟩; cases h; exact ⟨rfl, rfl, rfl⟩
  case queries => rintro (rfl | rfl) <;> cases h <;> rfl
  case read => rintro ⟨n, rfl⟩; rw [execRead_frame h]; exact ⟨rfl, rfl, rfl⟩
  case write => rintro ⟨n, d, rfl⟩; rw [execWrite_frame h]; exact ⟨rfl, rfl, rfl⟩
  case flush => rintro rfl; cases h; exact ⟨rfl, rfl, rfl⟩

/-! ## What an operation does to the invariant -/

/-- A well-formed operation that answers keeps the invariant of unit F. -/
theorem UnitFInv.exec {i : Instr} {s t : State} (inv : UnitFInv s) (hw : WellFormed s.cfg i = true)
    (h : exec i s = .next t) : UnitFInv t := by
  obtain ⟨u, hu, invU⟩ := inv.exec_completes hw
  cases hu.symm.trans h
  exact invU

/-- The RSP value of a well-formed operation is a `W`-bit value (30_encoding R75): a status, a boolean, or a remainder that does
not exceed the count. -/
theorem exec_responseOk {i : Instr} {s t : State} (hcfg : s.cfg.wf = true) (hw : WellFormed s.cfg i = true)
    (hr : s.responseOk = true) (h : exec i s = .next t) : t.responseOk = true := by
  have zero := Laws.RoundTrip.argFits_zero s.cfg
  cases i with
  | init c =>
    obtain rfl | rfl := execInit_next h
    · exact argFits_one hcfg
    · exact zero
  | deinit => cases h; exact zero
  | flush => cases h; exact zero
  | isempty => cases h; exact argFits_boolRsp hcfg _
  | isfull => cases h; exact argFits_boolRsp hcfg _
  | write count data =>
    obtain ⟨hcount, -⟩ : s.cfg.argFits count = true ∧ data.length = count := by simpa [WellFormed] using hw
    obtain ⟨-, ⟨-, rfl⟩ | ⟨-, a, rfl⟩⟩ := execWrite_next h
    · exact hcount
    · simpa [State.responseOk] using argFits_mono hcount (Nat.sub_le count a)
  | read count =>
    have hcount : s.cfg.argFits count = true := hw
    obtain ⟨-, rfl⟩ | ⟨-, bs, d, -, rfl⟩ := execRead_next h
    · exact hcount
    · simpa [State.responseOk] using argFits_mono hcount (Nat.sub_le count bs.length)
  | decode hi mid lo => cases h; exact hr

/-- A command without a stream gives a response (30_encoding R75). -/
theorem exec_response_isSome {i : Instr} {s t : State} (hs : Instr.streamless i = true) (h : exec i s = .next t) :
    t.response.isSome = true := by
  cases i with
  | init c => obtain rfl | rfl := execInit_next h <;> rfl
  | deinit => cases h; rfl
  | flush => cases h; rfl
  | isempty => cases h; rfl
  | isfull => cases h; rfl
  | write _ _ => cases hs
  | read _ => cases hs
  | decode _ _ _ => cases hs

/-! ## The burst bookkeeping -/

theorem burstOk_congr {s t : State} (hg : t.cfg = s.cfg) (hb : t.burst = s.burst) (hr : t.response = s.response) :
    t.burstOk = s.burstOk := by
  simp [State.burstOk, hg, hb, hr]

theorem burstOk_of_idle {s : State} (h : s.burst.phase = .idle) : s.burstOk = (s.burst == Burst.none) := by
  simp [State.burstOk, h]

theorem burstOk_command_iff {s : State} {i : Instr} (h : s.burst.phase = .command i) :
    s.burstOk = true ↔
      s.burst = ⟨.command i, 0, 0, []⟩ ∧ Instr.streamless i = true ∧ WellFormed s.cfg i = true := by
  simp [State.burstOk, h, and_assoc]

theorem burstOk_stream_iff {s : State} (h : s.burst.phase = .writing ∨ s.burst.phase = .reading) :
    s.burstOk = true ↔
      s.burst.index ≤ s.burst.count ∧ s.burst.stream.length = s.burst.index ∧ s.cfg.argFits s.burst.count = true := by
  obtain h | h := h <;> simp [State.burstOk, h, and_assoc]

/-- A command that was just taken is well-formed, and a burst starts at byte 0 (10_state R36). -/
theorem burstOk_accepted {s : State} {arg : Nat} (op : Op) (ha : s.cfg.argFits arg = true) :
    ({ s with burst := Burst.accepted arg op } : State).burstOk = true := by
  cases op <;> simp [State.burstOk, Burst.accepted, Instr.streamless, WellFormed, ha]

/-- One more byte of a burst that wants one keeps `i <= count` (10_state R36). -/
theorem burstOk_nextByte {s t : State} {ph : Phase} {b : Byte} (hph : s.burst.phase = ph)
    (hs : ph = .writing ∨ ph = .reading) (hok : s.burstOk = true) (hlt : s.burst.index < s.burst.count)
    (hg : t.cfg = s.cfg) (hb : t.burst = ⟨ph, s.burst.index + 1, s.burst.count, s.burst.stream ++ [b]⟩) :
    t.burstOk = true := by
  obtain ⟨-, hlen, hcount⟩ := (burstOk_stream_iff (hph ▸ hs)).mp hok
  refine (burstOk_stream_iff (by simpa [hb] using hs)).mpr ?_
  simpa [hb, hg, hlen, hcount] using hlt

/-! ## The invariant of the whole machine -/

theorem Inv.congr {s t : State} (inv : Inv s) (hg : t.cfg = s.cfg) (hu : t.unitF = s.unitF) (hb : t.burst = s.burst)
    (hr : t.response = s.response) : Inv t where
  cfgWf := hg ▸ inv.cfgWf
  unitF := inv.unitF.congr hg hu
  burst := (burstOk_congr hg hb hr).trans inv.burst
  response := by simpa [State.responseOk, hg, hr] using inv.response

theorem Inv.resetBlock {s : State} (inv : Inv s) : Inv (resetBlock s) where
  cfgWf := inv.cfgWf
  unitF := .of_absent rfl
  burst := rfl
  response := rfl

section
variable {s t : State} (inv : Inv s)
include inv

/-- A transaction performs its operation at an idle port, or at unit D beside whatever the port is doing. -/
theorem Inv.exec {i : Instr} (hw : WellFormed s.cfg i = true)
    (port : s.burst.phase = .idle ∨ ∃ hi mid lo, i = .decode hi mid lo) (h : exec i s = .next t) : Inv t := by
  obtain hidle | ⟨hi, mid, lo, rfl⟩ := port
  · obtain ⟨hcfg, hburst, -⟩ := exec_hostFrame h
    refine ⟨hcfg ▸ inv.cfgWf, inv.unitF.exec hw h, ?_, exec_responseOk inv.cfgWf hw inv.response h⟩
    rw [burstOk_of_idle (by rw [hburst, hidle]), hburst, ← burstOk_of_idle hidle]
    exact inv.burst
  · cases h
    exact inv.congr rfl rfl rfl rfl

theorem Inv.acceptCommand {word : Nat} (h : acceptCommand word s = .next t) : Inv t := by
  obtain ⟨op, -, ha, rfl⟩ := acceptCommand_next h
  exact ⟨inv.cfgWf, inv.unitF.congr rfl rfl, burstOk_accepted op ha, inv.response⟩

theorem Inv.performCommand {i : Instr} (hph : s.burst.phase = .command i) (h : performCommand i s = .next t) :
    Inv t := by
  obtain ⟨-, hs, hw⟩ := (burstOk_command_iff hph).mp inv.burst
  obtain ⟨u, hu, rfl⟩ := performCommand_next h
  exact {
    cfgWf := (exec_hostFrame hu).1 ▸ inv.cfgWf
    unitF := (inv.unitF.exec hw hu).congr rfl rfl
    burst := (exec_response_isSome hs hu :)
    response := (exec_responseOk inv.cfgWf hw inv.response hu :) }

/-- The end of a burst: the remainder is a `W`-bit value, because the latched count is one (30_encoding R75). -/
theorem Inv.endBurst (hs : s.burst.phase = .writing ∨ s.burst.phase = .reading) (taken out : List Byte) :
    Inv { s.respond (s.burst.count - s.burst.index) taken out with burst := Burst.answer } := by
  obtain ⟨-, -, hcount⟩ := (burstOk_stream_iff hs).mp inv.burst
  exact ⟨inv.cfgWf, inv.unitF.congr rfl rfl, rfl, argFits_mono hcount (Nat.sub_le _ _)⟩

theorem Inv.writeCycle {p : PinsIn} {advance : Bool} (hph : s.burst.phase = .writing)
    (h : writeCycle p advance s = .next t) : Inv t := by
  obtain rfl | ⟨hwants, -, -, rfl⟩ | ⟨-, -, rfl⟩ := writeCycle_next h
  · exact inv
  · obtain ⟨⟨hp, hlt⟩, hf⟩ : (s.present = true ∧ s.burst.index < s.burst.count) ∧ s.full = false := by
      simpa [State.wantsByte] using hwants
    exact {
      cfgWf := inv.cfgWf
      unitF := (inv.unitF.pushed hp hf p.wrData).congr rfl rfl
      burst := burstOk_nextByte hph (.inl rfl) inv.burst hlt rfl rfl
      response := inv.response }
  · exact inv.endBurst (.inl hph) _ _

theorem Inv.readCycle {p : PinsIn} {advance : Bool} (hph : s.burst.phase = .reading)
    (h : readCycle p advance s = .next t) : Inv t := by
  obtain rfl | ⟨hhas, -, -, b, d, -, rfl⟩ | ⟨-, -, rfl⟩ := readCycle_next h
  · exact inv
  · obtain ⟨⟨-, hlt⟩, hsome⟩ : (s.present = true ∧ s.burst.index < s.burst.count) ∧ s.head.isSome := by
      simpa [State.hasByte, State.empty] using hhas
    obtain ⟨k, hk⟩ := Option.isSome_iff_exists.mp hsome
    exact {
      cfgWf := s.popped_cfg ▸ inv.cfgWf
      unitF := (inv.unitF.popped hk).congr rfl rfl
      burst := burstOk_nextByte hph (.inr rfl) inv.burst hlt s.popped_cfg rfl
      response := by simpa [State.responseOk] using inv.response }
  · exact inv.endBurst (.inr hph) _ _

/-- An edge with `rst` low keeps the invariant, whatever the phase of the port. -/
theorem Inv.portCycle {p : PinsIn} {advance : Bool} (h : portCycle p advance s = .next t) : Inv t := by
  cases hph : s.burst.phase with
  | idle =>
    rw [portCycle_idle hph] at h
    split at h
    · exact inv.acceptCommand h
    · cases h; exact inv
  | command i =>
    rw [portCycle_command hph] at h
    split at h
    · exact inv.performCommand hph h
    · cases h; exact inv
  | writing => rw [portCycle_writing hph] at h; exact inv.writeCycle hph h
  | reading => rw [portCycle_reading hph] at h; exact inv.readCycle hph h
  | responding =>
    rw [portCycle_responding hph] at h
    cases h
    exact ⟨inv.cfgWf, inv.unitF.congr rfl rfl, rfl, inv.response⟩

theorem Inv.clockEdge {p : PinsIn} {advance : Bool} (h : clockEdge p advance s = .next t) : Inv t := by
  obtain ⟨o, -, hafter⟩ := clockEdge_next h
  have sampled : Inv { s.afterFull with pins := some o } := inv.congr rfl rfl rfl rfl
  obtain ⟨-, rfl⟩ | ⟨-, hport⟩ := hafter
  · exact sampled.resetBlock
  · exact sampled.portCycle hport

theorem Inv.runPresented {p : Presented} (port : s.burst.phase = .idle ∨ ∃ w, p = .dec w)
    (h : runPresented p s = .next t) : Inv t := by
  unfold Machine.runPresented at h
  split at h
  · rename_i i hd
    refine inv.exec (decode_wellFormed hd) (port.imp_right ?_) h
    rintro ⟨w, rfl⟩
    cases hd
    exact ⟨_, _, _, rfl⟩
  · cases h

theorem Inv.serveOp {p : Presented} (h : serveOp p s = .next t) : Inv t := by
  cases p with
  | dec word => exact inv.runPresented (.inr ⟨word, rfl⟩) ((serveOp_dec word s).symm.trans h)
  | cmd word data =>
    by_cases hidle : s.burst.phase = .idle
    · exact inv.runPresented (.inl hidle) ((serveOp_cmd_idle hidle word data).symm.trans h)
    · rw [serveOp_cmd_busy hidle] at h
      cases h
      exact inv

theorem Inv.serve {r : Request} (h : serve r s = .next t) : Inv t := by
  cases r with
  | op p => exact inv.serveOp h
  | reset => cases h; exact inv.resetBlock
  | sample => cases h; exact inv.congr rfl rfl rfl rfl
  | edge p advance => exact inv.clockEdge h

end

/-- Settles O10, by cases on the host's next action. -/
theorem stepKeepsInvariant : Obligations.StepKeepsInvariant := by
  intro s t inv h
  cases hpending : s.pending with
  | nil =>
    rw [step_nil hpending] at h
    cases h
    exact inv
  | cons r rest =>
    rw [step_cons hpending] at h
    have served : Inv { s with pending := rest } := inv.congr rfl rfl rfl rfl
    exact served.serve h

/-- Settles O11: nothing of the reset state depends on the parameters. -/
theorem resetMeetsInvariant : Obligations.ResetMeetsInvariant := by
  have reset (cfg : Config) (h : cfg.wf = true) : Inv { State.reset with cfg := cfg } :=
    ⟨h, .of_absent rfl, rfl, rfl⟩
  exact ⟨reset Config.suggested (by decide), reset⟩

/-- Settles O15, by the values of 10_state R37. -/
theorem resetLeavesDeinitialized : Obligations.ResetLeavesDeinitialized :=
  ⟨rfl, rfl, rfl, rfl, Memory.read_nil, rfl, rfl, rfl, rfl, rfl, fun _ => rfl⟩

/-! ## Occupancy -/

/-- Settles O24: both indices are slots, so the distance along the ring is below the capacity. -/
theorem occupancyFormula : Obligations.OccupancyFormula := by
  intro s inv
  refine ⟨occ_of_head_none, fun h t hh ht => ?_⟩
  obtain ⟨hnone, -⟩ | ⟨h', t', hh', ht', hlt, htlt⟩ := inv.indices
  · simp [hh] at hnone
  · cases hh.symm.trans hh'
    cases ht.symm.trans ht'
    have ho := occ_of_some hh ht hlt htlt
    refine ⟨occ_eq_int hh ht hlt htlt, ?_, ?_⟩ <;> split at ho <;> omega

/-! ## Acceptance of a command at the pins -/

/-- The edge that takes a command latches it and leaves unit F alone (30_encoding R87). -/
theorem UnitFInv.clockEdge_accepts {s : State} {p : PinsIn} {op : Op} {arg : Nat} (inv : UnitFInv s) (advance : Bool)
    (hidle : s.burst.phase = .idle) (ha : s.cfg.argFits arg = true) (hrst : p.rst = false)
    (hvalid : p.cmdValid = true) (hcmd : p.cmd = cmdWord op arg) :
    ∃ t, clockEdge p advance s = .next t ∧ t.unitF = s.unitF ∧ t.burst = Burst.accepted arg op := by
  obtain ⟨o, u, -, hedge, hcfg, hunit, hburst, -⟩ := inv.clockEdge_sampled advance hrst
  have harg : cmdArg p.cmd = arg := by rw [hcmd, Laws.RoundTrip.cmdArg_cmdWord]
  have hop : Op.ofCode (cmdOp p.cmd) = some op := by
    rw [hcmd, Laws.RoundTrip.cmdOp_cmdWord, Laws.RoundTrip.ofCode_code]
  have htaken := acceptCommand_of_op (s := u) (by rw [hcfg, harg, ha]) hop
  refine ⟨{ u with burst := Burst.accepted arg op }, ?_, hunit, rfl⟩
  rw [hedge, portCycle_idle (by rw [hburst, hidle]), if_pos hvalid, htaken, harg]

/-- Settles O48: the two commands with a stream among those that an edge takes. -/
theorem burstAcceptance : Obligations.BurstAcceptance := by
  intro s p advance count inv hidle ha hrst hvalid
  exact ⟨fun hcmd => inv.clockEdge_accepts (op := .write) advance hidle ha hrst hvalid hcmd,
    fun hcmd => inv.clockEdge_accepts (op := .read) advance hidle ha hrst hvalid hcmd⟩

/-! ## What can be observed -/

/-- Two states that 10_state R30 does not tell apart: they meet the invariant and agree on everything but the positions of head
and tail and the bytes outside the written window. -/
structure State.Alike (s₁ s₂ : State) : Prop where
  inv₁ : UnitFInv s₁
  inv₂ : UnitFInv s₂
  cfg : s₁.cfg = s₂.cfg
  draws : s₁.draws = s₂.draws
  present : s₁.present = s₂.present
  capacity : s₁.capacity = s₂.capacity
  contents : s₁.contents = s₂.contents

theorem UnitFInv.empty_eq {s : State} (inv : UnitFInv s) : s.empty = s.contents.isEmpty := by
  rw [Bool.eq_iff_iff, List.isEmpty_iff, ← List.length_eq_zero_iff, inv.contents_length, inv.occ_zero_iff]
  simp [State.empty]

section
variable {s₁ s₂ : State} (h : s₁.Alike s₂)
include h

theorem State.Alike.occ : s₁.occ = s₂.occ := by
  rw [← h.inv₁.contents_length, ← h.inv₂.contents_length, h.contents]

theorem State.Alike.usable : s₁.usable = s₂.usable := usable_congr h.cfg h.present h.capacity

theorem State.Alike.empty : s₁.empty = s₂.empty := by rw [h.inv₁.empty_eq, h.inv₂.empty_eq, h.contents]

/-- A present buffer is full by occupancy (41_status R127), an absent one by the parameters and the draw counter (R124). -/
theorem State.Alike.full : s₁.full = s₂.full := by
  cases hp : s₂.present with
  | true =>
    rw [Bool.eq_iff_iff, h.inv₁.full_iff (h.present.trans hp), h.inv₂.full_iff hp, h.occ, h.usable]
  | false => simp [State.full, h.present, hp, h.cfg, h.draws]

theorem State.Alike.respond (v : Nat) (taken out : List Byte) :
    (s₁.respond v taken out).Alike (s₂.respond v taken out) :=
  ⟨h.inv₁.respondState v taken out, h.inv₂.respondState v taken out, h.cfg, h.draws, h.present, h.capacity, h.contents⟩

theorem State.Alike.absent : s₁.absent.Alike s₂.absent :=
  ⟨.absentState s₁, .absentState s₂, h.cfg, h.draws, rfl, rfl, rfl⟩

theorem State.Alike.created {c : Nat} (hc : 1 ≤ c) (hcap : s₁.cfg.capFits c = true) (hw : s₁.cfg.argFits c = true) :
    (s₁.created c).Alike (s₂.created c) :=
  ⟨.createdState s₁ hc hcap hw, .createdState s₂ hc (h.cfg ▸ hcap) (h.cfg ▸ hw), h.cfg, h.draws, rfl, rfl, rfl⟩

theorem State.Alike.flushed : s₁.flushed.Alike s₂.flushed :=
  ⟨h.inv₁.flushedState, h.inv₂.flushedState, h.cfg, h.draws, h.present, h.capacity, rfl⟩

theorem State.Alike.afterFull : s₁.afterFull.Alike s₂.afterFull :=
  ⟨h.inv₁.afterFullState, h.inv₂.afterFullState, h.cfg,
    by simp [State.fullIsDraw, h.present, h.cfg, h.draws], h.present, h.capacity, h.contents⟩

theorem State.Alike.pushedAll (hp : s₁.present = true) {bs : List Byte} (hle : bs.length ≤ s₁.usable - s₁.occ) :
    (State.pushedAll bs s₁).Alike (State.pushedAll bs s₂) := by
  obtain ⟨inv₁, contents₁, -⟩ := h.inv₁.pushedAll hp hle
  obtain ⟨inv₂, contents₂, -⟩ := h.inv₂.pushedAll (h.present ▸ hp) (h.usable ▸ h.occ ▸ hle)
  exact ⟨inv₁, inv₂, by simpa using h.cfg, by simpa using h.draws, by simpa using h.present,
    by simpa using h.capacity, by rw [contents₁, contents₂, h.contents]⟩

theorem State.Alike.poppedAll {n : Nat} (hle : n ≤ s₁.occ) :
    (State.poppedAll n s₁).Alike (State.poppedAll n s₂) := by
  obtain ⟨inv₁, contents₁, -⟩ := h.inv₁.poppedAll hle
  obtain ⟨inv₂, contents₂, -⟩ := h.inv₂.poppedAll (h.occ ▸ hle)
  exact ⟨inv₁, inv₂, by simpa using h.cfg, by simpa using h.draws, by simpa using h.present,
    by simpa using h.capacity, by rw [contents₁, contents₂, h.contents]⟩

theorem State.Alike.execInit {c : Nat} (hw : s₁.cfg.argFits c = true) :
    ∃ t₁ t₂, execInit c s₁ = .next t₁ ∧ execInit c s₂ = .next t₂ ∧ t₁.Alike t₂ ∧ t₁.response = t₂.response := by
  by_cases hbad : c = 0 ∨ s₁.cfg.capFits c = false
  · exact ⟨_, _, if_pos hbad, if_pos (h.cfg ▸ hbad), h.absent.respond 1 [] [], rfl⟩
  · obtain ⟨hc, hcap⟩ : c ≠ 0 ∧ s₁.cfg.capFits c = true := by simpa using hbad
    exact ⟨_, _, if_neg hbad, if_neg (h.cfg ▸ hbad),
      (h.created (Nat.pos_of_ne_zero hc) hcap hw).respond 0 [] [], rfl⟩

theorem State.Alike.execWrite (data : List Byte) :
    ∃ t₁ t₂, execWrite data.length data s₁ = .next t₁ ∧ execWrite data.length data s₂ = .next t₂ ∧
      t₁.Alike t₂ ∧ t₁.response = t₂.response := by
  cases hp : s₁.present with
  | false =>
    exact ⟨_, _, execWrite_absent hp data, execWrite_absent (h.present ▸ hp) data, h.respond _ _ _, rfl⟩
  | true =>
    have write₂ := h.inv₂.execWrite_eq (h.present ▸ hp) data
    rw [← h.usable, ← h.occ] at write₂
    exact ⟨_, _, h.inv₁.execWrite_eq hp data, write₂, (h.pushedAll hp (by simp)).respond _ _ _, rfl⟩

theorem State.Alike.execRead (n : Nat) :
    ∃ t₁ t₂, execRead n s₁ = .next t₁ ∧ execRead n s₂ = .next t₂ ∧ t₁.Alike t₂ ∧ t₁.response = t₂.response := by
  cases hp : s₁.present with
  | false => exact ⟨_, _, execRead_absent hp n, execRead_absent (h.present ▸ hp) n, h.respond _ _ _, rfl⟩
  | true =>
    have read₂ := h.inv₂.execRead_eq (h.present ▸ hp) n
    rw [← h.contents, ← h.occ] at read₂
    exact ⟨_, _, h.inv₁.execRead_eq hp n, read₂, (h.poppedAll (by omega)).respond _ _ _, rfl⟩

/-- A well-formed operation does not tell the two states apart: same response, and again two such states. -/
theorem State.Alike.exec {i : Instr} (hresp : s₁.response = s₂.response) (hw : WellFormed s₁.cfg i = true) :
    ∃ t₁ t₂, exec i s₁ = .next t₁ ∧ exec i s₂ = .next t₂ ∧ t₁.Alike t₂ ∧ t₁.response = t₂.response := by
  cases i with
  | init c => exact h.execInit hw
  | deinit => exact ⟨_, _, rfl, rfl, h.absent.respond 0 [] [], rfl⟩
  | flush => exact ⟨_, _, rfl, rfl, h.flushed.respond 0 [] [], rfl⟩
  | isempty =>
    exact ⟨_, _, rfl, rfl, h.empty ▸ h.respond (boolRsp s₁.empty) [] [], by simp [h.empty]⟩
  | isfull =>
    exact ⟨_, _, rfl, rfl, h.full ▸ h.afterFull.respond (boolRsp s₁.full) [] [], by simp [h.full]⟩
  | write count data =>
    obtain ⟨-, rfl⟩ : s₁.cfg.argFits count = true ∧ data.length = count := by simpa [WellFormed] using hw
    exact h.execWrite data
  | read count => exact h.execRead count
  | decode hi mid lo =>
    exact ⟨_, _, rfl, rfl, ⟨h.inv₁.congr rfl rfl, h.inv₂.congr rfl rfl, h.cfg, h.draws, h.present, h.capacity,
      h.contents⟩, hresp⟩

theorem State.Alike.clearResponse :
    ({ s₁ with response := none } : State).Alike { s₂ with response := none } :=
  ⟨h.inv₁.congr rfl rfl, h.inv₂.congr rfl rfl, h.cfg, h.draws, h.present, h.capacity, h.contents⟩

end

theorem runOps_cons {i : Instr} {is : List Instr} {s t u : State} {rs : List Response}
    (h : exec i { s with response := none } = .next t) (hrest : runOps is t = some (rs, u)) :
    runOps (i :: is) s = some (t.response.toList ++ rs, u) := by
  simp [runOps, h, hrest]

/-- A list of operations does not tell the two states apart either. -/
theorem State.Alike.runOps {is : List Instr} {s₁ s₂ : State} (h : s₁.Alike s₂)
    (hw : ∀ i ∈ is, WellFormed s₁.cfg i = true) :
    ∃ rs t₁ t₂, runOps is s₁ = some (rs, t₁) ∧ runOps is s₂ = some (rs, t₂) ∧ t₁.Alike t₂ := by
  induction is generalizing s₁ s₂ with
  | nil => exact ⟨[], s₁, s₂, rfl, rfl, h⟩
  | cons i is ih =>
    obtain ⟨u₁, u₂, hu₁, hu₂, hu, hresp⟩ := h.clearResponse.exec rfl (hw i (by simp))
    have hcfg : u₁.cfg = s₁.cfg := (exec_hostFrame hu₁).1
    obtain ⟨rs, t₁, t₂, ht₁, ht₂, ht⟩ := ih hu fun j hj => hcfg ▸ hw j (by simp [hj])
    exact ⟨_, t₁, t₂, runOps_cons hu₁ ht₁, hresp ▸ runOps_cons hu₂ ht₂, ht⟩

/-- Settles O37, by induction on the list of operations. -/
theorem onlyContentsObservable : Obligations.OnlyContentsObservable := by
  intro is s₁ s₂ inv₁ inv₂ hcfg hdraws hpresent hcapacity hcontents hw
  have alike : s₁.Alike s₂ := ⟨inv₁, inv₂, hcfg, hdraws, hpresent, hcapacity, hcontents⟩
  obtain ⟨rs, t₁, t₂, ht₁, ht₂, ht⟩ := alike.runOps hw
  exact ⟨rs, t₁, t₂, ht₁, ht₂, ht.present, ht.capacity, ht.contents, ht.draws⟩

end Sys2Proof.Machine

/-! SUPPORT. The memory rules of 20_memory: accesses to slots that exist and to slots that do not (R53, R54, R62), and the
operations that change nothing of unit F or nothing more when they are repeated (R57). -/

namespace Sys2Proof.Machine

open Sys2Proof

/-! ## Store accesses -/

section
variable {s : State} {i : Nat}

theorem State.hasSlot_iff : s.hasSlot i = true ↔ s.present = true ∧ i < s.capacity := by
  simp [State.hasSlot]

theorem State.hasSlot_eq_false_iff : s.hasSlot i = false ↔ s.present = false ∨ s.capacity ≤ i := by
  rw [← Bool.not_eq_true, State.hasSlot_iff, not_and_or, Bool.not_eq_true, not_lt]

theorem memWrite_hasSlot (h : s.hasSlot i = true) (b : Byte) :
    memWrite i b s = .ok { s with store := s.store.write i b } := if_pos h

theorem memWrite_noSlot (h : s.hasSlot i = false) (b : Byte) : memWrite i b s = .error .noSuchSlot := by
  simp [memWrite, h]

theorem memRead_noSlot (h : s.hasSlot i = false) : memRead i s = .error .noSuchSlot := by
  simp [memRead, h]

/-- A load from a slot that holds a byte draws no free value (20_memory R53). -/
theorem memRead_stored {b : Byte} (h : s.hasSlot i = true) (hb : s.store.read i = some b) :
    memRead i s = .ok (b, s) := by
  simp [memRead, h, hb]

end

/-- Settles O40, by the laws of the store. -/
theorem storeAccess : Obligations.StoreAccess := by
  intro s i b
  constructor
  · intro hp hi
    have hslot : s.hasSlot i = true := State.hasSlot_iff.mpr ⟨hp, hi⟩
    have hread : (s.store.write i b).read i = some b := s.store.read_write_same i b
    exact ⟨{ s with store := s.store.write i b }, memWrite_hasSlot hslot b, memRead_stored hslot hread,
      fun _ hj => s.store.read_write_other b hj, rfl, Memory.write_wf i b⟩
  · intro habsent
    have hslot : s.hasSlot i = false := State.hasSlot_eq_false_iff.mpr habsent
    exact ⟨memWrite_noSlot hslot b, memRead_noSlot hslot⟩

/-! ## Repeated operations -/

/-- Whether INIT succeeds depends on its capacity and the parameters alone, so a second one has the first one's outcome. -/
theorem execInit_repeated (s : State) (c : Nat) :
    ∃ t u, execInit c s = .next t ∧ execInit c t = .next u ∧ u.unitF = t.unitF ∧ u.response = t.response := by
  by_cases hbad : c = 0 ∨ s.cfg.capFits c = false
  · exact ⟨_, _, if_pos hbad, if_pos hbad, rfl, rfl⟩
  · exact ⟨_, _, if_neg hbad, if_neg hbad, rfl, rfl⟩

/-- Settles O20: FLUSH and DEINIT set components to fixed values, and the queries and DECODE set none. -/
theorem repeatedOperations : Obligations.RepeatedOperations := by
  intro s c
  constructor
  · rintro i (rfl | rfl | rfl)
    · exact ⟨_, _, rfl, rfl, rfl, rfl⟩
    · exact ⟨_, _, rfl, rfl, rfl, rfl⟩
    · exact execInit_repeated s c
  · rintro i (rfl | rfl | ⟨h, m, l, rfl⟩)
    · exact ⟨_, rfl, State.respond_unitF _ _ _ s⟩
    · exact ⟨_, rfl, s.afterFull_unitF⟩
    · exact ⟨_, rfl, rfl⟩

end Sys2Proof.Machine

/-! SUPPORT. The encoding rules of 30_encoding: the decoder and the encoder (R70 to R85), the worked encodings (R94), the
pins (R86 to R88), and that the ports add no behaviour to the transactions (R90). -/

namespace Sys2Proof.Machine

open Sys2Proof

/-! ## The decoder and the encoder -/

/-- Settles O1, by the family RoundTrip. -/
theorem decodeOfEncode : Obligations.DecodeOfEncode := by
  intro cfg i
  cases i with
  | init c => exact Laws.RoundTrip.init c cfg
  | deinit => exact Laws.RoundTrip.deinit cfg
  | flush => exact Laws.RoundTrip.flush cfg
  | isempty => exact Laws.RoundTrip.isempty cfg
  | isfull => exact Laws.RoundTrip.isfull cfg
  | write count data => exact Laws.RoundTrip.write count data cfg
  | read count => exact Laws.RoundTrip.read count cfg
  | decode h m l => exact Laws.RoundTrip.decode h m l cfg

/-- Settles O2. -/
theorem decodeGivesWellFormed : Obligations.DecodeGivesWellFormed := fun _ _ _ => decode_wellFormed

/-- The operation that an operation code stands for, with its argument and the bytes offered beside it (30_encoding R72,
R73). -/
def operationOf (arg : Nat) (data : List Byte) : Op → Instr
  | .init => .init arg
  | .deinit => .deinit
  | .flush => .flush
  | .isempty => .isempty
  | .isfull => .isfull
  | .write => .write arg data
  | .read => .read arg

theorem decodeCmd_of_op {cfg : Config} {word : Nat} {op : Op} (data : List Byte) (ha : cfg.argFits (cmdArg word) = true)
    (hop : Op.ofCode (cmdOp word) = some op) :
    decodeCmd cfg word data = if op = .write ∧ data.length ≠ cmdArg word then .error .dataLengthMismatch
      else .ok (operationOf (cmdArg word) data op) := by
  cases op <;> simp [decodeCmd, ha, hop, operationOf]

/-- What a command word that is not rejected consists of (30_encoding R71, R72). -/
theorem decodeCmd_ok {cfg : Config} {word : Nat} {data : List Byte} {i : Instr} (h : decodeCmd cfg word data = .ok i) :
    ∃ op, Op.ofCode (cmdOp word) = some op ∧ cfg.argFits (cmdArg word) = true ∧
      i = operationOf (cmdArg word) data op := by
  cases ha : cfg.argFits (cmdArg word) with
  | false => simp [decodeCmd, ha] at h
  | true =>
    cases hop : Op.ofCode (cmdOp word) with
    | none => simp [decodeCmd, ha, hop] at h
    | some op =>
      rw [decodeCmd_of_op data ha hop] at h
      split at h <;> cases h
      exact ⟨op, rfl, rfl, rfl⟩

theorem decodeCmd_cmdWord {cfg : Config} {a : Nat} (op : Op) (data : List Byte) (ha : cfg.argFits a = true) :
    decodeCmd cfg (cmdWord op a) data = if op = .write ∧ data.length ≠ a then .error .dataLengthMismatch
      else .ok (operationOf a data op) := by
  have harg := Laws.RoundTrip.cmdArg_cmdWord op a
  have hop : Op.ofCode (cmdOp (cmdWord op a)) = some op := by
    rw [Laws.RoundTrip.cmdOp_cmdWord, Laws.RoundTrip.ofCode_code]
  rw [decodeCmd_of_op data (by rw [harg, ha]) hop, harg]

/-- A command word is its argument and its operation code put together (30_encoding R71). -/
theorem cmdWord_of_ofCode {word : Nat} {op : Op} (h : Op.ofCode (cmdOp word) = some op) :
    word = cmdWord op (cmdArg word) := by
  have hcode : op.code = cmdOp word := by
    generalize cmdOp word = n at h
    unfold Op.ofCode at h
    split at h <;> cases h <;> rfl
  rw [cmdWord, hcode, cmdArg, cmdOp]
  omega

theorem cmdArg_reserved (a : Nat) : cmdArg (a * 8 + 7) = a := by rw [cmdArg]; omega

theorem ofCode_reserved (a : Nat) : Op.ofCode (cmdOp (a * 8 + 7)) = none := by
  have : cmdOp (a * 8 + 7) = 7 := by rw [cmdOp]; omega
  rw [this]; rfl

theorem decodeCmd_reserved {cfg : Config} {a : Nat} (ha : cfg.argFits a = true) (data : List Byte) :
    decodeCmd cfg (a * 8 + 7) data = .error .reservedOpcode := by
  simp [decodeCmd, cmdArg_reserved, ha, ofCode_reserved]

theorem acceptCommand_reserved {s : State} {a : Nat} (ha : s.cfg.argFits a = true) :
    acceptCommand (a * 8 + 7) s = .refused .reservedOpcode := by
  simp [acceptCommand, cmdArg_reserved, ha, ofCode_reserved]

/-- Settles O3: each word is that of an operation code, or has the reserved code. -/
theorem commandWordOperations : Obligations.CommandWordOperations := by
  intro cfg a data ha
  have word (op : Op) := decodeCmd_cmdWord op data ha
  exact ⟨word .init, word .deinit, word .flush, word .isempty, word .isfull,
    fun hlen => (word .write).trans (if_neg (by simp [hlen])),
    fun hlen => (word .write).trans (if_pos ⟨rfl, hlen⟩),
    word .read, decodeCmd_reserved ha data, rfl, rfl, rfl, rfl⟩

/-- Settles O4: the decoder and the acceptance at the pins both reject code 7. -/
theorem reservedOpcodeRefused : Obligations.ReservedOpcodeRefused := by
  intro s a data rest p advance inv hidle ha
  refine ⟨fun hpending => ?transaction, fun hpending hrst hvalid hcmd => ?pins, fun word => ⟨_, _, rfl, rfl⟩⟩
  case transaction =>
    rw [step_cons hpending]
    refine (serveOp_cmd_idle (s := { s with pending := rest }) hidle _ data).trans ?_
    simp [runPresented, decode, decodeCmd_reserved ha, Refusal.ofReject]
  case pins =>
    rw [step_cons hpending]
    have served : UnitFInv { s with pending := rest } := inv.congr rfl rfl
    obtain ⟨o, w, -, hedge, hcfg, -, hburst, -⟩ := served.clockEdge_sampled advance hrst
    refine hedge.trans ?_
    rw [portCycle_idle (by rw [hburst]; exact hidle), if_pos hvalid, hcmd]
    exact acceptCommand_reserved (hcfg ▸ ha)

/-- Settles O5: the words are computed, and O1 decodes them. -/
theorem workedEncodings : Obligations.WorkedEncodings := by
  have back (i : Instr) (h : WellFormed Config.suggested i = true) := decodeOfEncode Config.suggested i h
  exact ⟨rfl, rfl, rfl, rfl, rfl, rfl, rfl, rfl, rfl, back (.init 4) rfl, back .deinit rfl, back .flush rfl,
    back .isempty rfl, back .isfull rfl, back (.write 3 [10, 20, 30]) rfl, back (.read 2) rfl,
    back (.decode 0x31 0x32 0x33) rfl⟩

/-- Settles O6: the three bytes are the bit ranges that `decodeDec` extracts. -/
theorem everyOperandWordDecodes : Obligations.EveryOperandWordDecodes := by
  intro cfg word
  have := word.isLt
  refine ⟨_, _, _, rfl, ?_, ?_, ?_⟩ <;> simp only [BitVec.extractLsb'_toNat, Nat.shiftRight_eq_div_pow] <;> omega

/-- Settles O39. -/
theorem illFormedWriteRefused : Obligations.IllFormedWriteRefused := fun _ _ _ hlen => if_neg hlen

/-- Settles O41, by the result word in naturals. -/
theorem decodeResult : Obligations.DecodeResult := by
  intro s h m l
  have hv := decTriple_toNat h m l
  rw [decField_toNat, decField_toNat, decField_toNat] at hv
  refine ⟨decTriple h m l, rfl, ?_, ?_, ?_, ?_⟩ <;> omega

/-! ## Views of the state that look at unit F and the parameters only -/

section
variable {s u : State} (hu : u.unitF = s.unitF)
include hu

theorem unitF_fields : u.present = s.present ∧ u.capacity = s.capacity ∧ u.head = s.head ∧ u.tail = s.tail ∧
    u.store = s.store := by
  simpa [State.unitF] using hu

theorem occ_congr_unitF : u.occ = s.occ := by
  obtain ⟨-, hc, hh, ht, -⟩ := unitF_fields hu
  exact occ_congr hc hh ht

theorem usable_congr_unitF (hg : u.cfg = s.cfg) : u.usable = s.usable := by
  obtain ⟨hp, hc, -⟩ := unitF_fields hu
  exact usable_congr hg hp hc

/-- An evaluation of `full(S)` that draws no free bit does not look at the draw counter. -/
theorem full_congr_of_not_draw (hg : u.cfg = s.cfg) (hd : s.fullIsDraw = false) : u.full = s.full := by
  obtain ⟨hp, hc, hh, ht, -⟩ := unitF_fields hu
  cases hpresent : s.present with
  | true => simp [State.full, hp, hpresent, hg, hc, hh, ht, occ_congr_unitF hu]
  | false =>
    have hany : s.cfg.isfullAbsent ≠ .any := by simpa [State.fullIsDraw, hpresent] using hd
    cases habsent : s.cfg.isfullAbsent <;> simp_all [State.full]

theorem pushed_congr_unitF (b : Byte) : (u.pushed b).unitF = (s.pushed b).unitF := by
  obtain ⟨hp, hc, hh, ht, hs⟩ := unitF_fields hu
  simp [State.unitF, hp, hc, hh, ht, hs]

theorem popped_congr_unitF : u.popped.unitF = s.popped.unitF := by
  obtain ⟨hp, hc, hh, ht, hs⟩ := unitF_fields hu
  simp [State.unitF, hp, hc, hh, ht, hs]

end

theorem pushedAll_congr_unitF {s u : State} (hu : u.unitF = s.unitF) (bs : List Byte) :
    (State.pushedAll bs u).unitF = (State.pushedAll bs s).unitF := by
  induction bs generalizing s u with
  | nil => exact hu
  | cons b bs ih => exact ih (pushed_congr_unitF hu b)

theorem poppedAll_congr_unitF {s u : State} (hu : u.unitF = s.unitF) (n : Nat) :
    (State.poppedAll n u).unitF = (State.poppedAll n s).unitF := by
  induction n generalizing s u with
  | zero => exact hu
  | succ n ih => exact ih (popped_congr_unitF hu)

/-- The outcome of a command without a stream depends on unit F and the parameters alone, a fresh draw apart. -/
theorem exec_streamless_congr {i : Instr} {s w v : State} (hi : Instr.streamless i = true) (hu : w.unitF = s.unitF)
    (hg : w.cfg = s.cfg) (h : exec i w = .next v) :
    ∃ u, exec i s = .next u ∧ u.unitF = v.unitF ∧ (i ≠ .isfull ∨ s.fullIsDraw = false → u.response = v.response) := by
  obtain ⟨hp, hc, hh, ht, hs⟩ := unitF_fields hu
  cases i with
  | init c =>
    by_cases hbad : c = 0 ∨ s.cfg.capFits c = false
    · cases (if_pos (hg ▸ hbad)).symm.trans h
      exact ⟨_, if_pos hbad, rfl, fun _ => rfl⟩
    · cases (if_neg (hg ▸ hbad)).symm.trans h
      exact ⟨_, if_neg hbad, rfl, fun _ => rfl⟩
  | deinit => cases h; exact ⟨_, rfl, rfl, fun _ => rfl⟩
  | flush => cases h; exact ⟨_, rfl, by simp [State.unitF, hp, hc, hs], fun _ => rfl⟩
  | isempty => cases h; exact ⟨_, rfl, hu.symm, fun _ => by simp [State.empty, hh]⟩
  | isfull =>
    cases h
    refine ⟨_, rfl, hu.symm, fun hdraw => ?_⟩
    have hd : s.fullIsDraw = false := by simpa using hdraw
    simp [full_congr_of_not_draw hu hg hd]
  | write _ _ => cases hi
  | read _ => cases hi
  | decode _ _ _ => cases hi

/-! ## Bursts, present or absent -/

section
variable {s : State} (inv : UnitFInv s)
include inv

/-- WRITE on any buffer: an absent one has no room, so the closed form of 42_transfer R142 covers it (60_exceptions R196). -/
theorem UnitFInv.exec_write (data : List Byte) :
    ∃ u, Machine.exec (.write data.length data) s = .next u ∧
      u.unitF = (State.pushedAll (data.take (s.usable - s.occ)) s).unitF ∧
      u.response = some ⟨data.length - min data.length (s.usable - s.occ), data.take (s.usable - s.occ), []⟩ := by
  cases hp : s.present with
  | true => exact ⟨_, inv.execWrite_eq hp data, rfl, rfl⟩
  | false =>
    have hroom : s.usable - s.occ = 0 := by simp [State.usable, hp]
    exact ⟨_, execWrite_absent hp data, by simp [hroom], by simp [hroom]⟩

/-- READ on any buffer: an absent one holds no byte, so the closed form of 42_transfer R152 covers it (60_exceptions R196). -/
theorem UnitFInv.exec_read (n : Nat) :
    ∃ u, Machine.exec (.read n) s = .next u ∧ u.unitF = (State.poppedAll (min n s.occ) s).unitF ∧
      u.response = some ⟨n - min n s.occ, [], s.contents.take n⟩ := by
  cases hp : s.present with
  | true => exact ⟨_, inv.execRead_eq hp n, rfl, rfl⟩
  | false =>
    have hhead : s.head = none := (inv.absent hp).2.1
    have hocc : s.occ = 0 := occ_of_head_none hhead
    exact ⟨_, execRead_absent hp n, by simp [hocc], by simp [hocc, State.contents, hhead]⟩

theorem UnitFInv.wantsByte_iff :
    s.wantsByte = true ↔ s.burst.index < s.burst.count ∧ s.occ < s.usable := by
  cases hp : s.present with
  | false => simp [State.wantsByte, State.usable, hp]
  | true =>
    have hocc := inv.occupancy
    have hfull : s.full = false ↔ s.occ < s.usable := by
      rw [← Bool.not_eq_true, inv.full_iff hp]; omega
    simp [State.wantsByte, hp, hfull]

theorem UnitFInv.hasByte_iff :
    s.hasByte = true ↔ s.burst.index < s.burst.count ∧ 0 < s.occ := by
  have hocc : 0 < s.occ ↔ s.head ≠ none := by rw [Nat.pos_iff_ne_zero, ne_eq, inv.occ_zero_iff]
  cases hh : s.head with
  | none => simp [State.hasByte, State.empty, hocc, hh]
  | some h => simp [State.hasByte, State.empty, hocc, hh, inv.present_of_head hh]

/-- The byte that a READ burst has is the oldest one, and the read byte step delivers it. -/
theorem UnitFInv.pop1_of_hasByte (h : s.hasByte = true) :
    ∃ b, pop1 s = .ok (some (b, s.popped)) ∧ s.contents = b :: s.popped.contents ∧ UnitFInv s.popped ∧
      s.popped.occ + 1 = s.occ := by
  obtain ⟨k, hk⟩ : ∃ k, s.head = some k := by
    obtain ⟨-, hocc⟩ := inv.hasByte_iff.mp h
    exact Option.ne_none_iff_exists'.mp fun hnone => by simp [occ_of_head_none hnone] at hocc
  obtain ⟨b, hb⟩ := inv.head_byte hk
  exact ⟨b, inv.pop1_some hk hb, inv.contents_popped hk hb, inv.popped hk, inv.popped_occ hk⟩

theorem UnitFInv.push1_of_wantsByte (h : s.wantsByte = true) (b : Byte) :
    push1 b s = .ok (some (s.pushed b)) ∧ (s.pushed b).occ = s.occ + 1 := by
  obtain ⟨⟨hp, -⟩, hf⟩ : (s.present = true ∧ s.burst.index < s.burst.count) ∧ s.full = false := by
    simpa [State.wantsByte] using h
  exact ⟨by simp [inv.push1_eq hp, hf], inv.pushed_occ hp hf b⟩

end

/-! ## What crosses the streams on an edge -/

theorem edgeTaken_of_not_writing {s : State} (h : s.burst.phase ≠ .writing) (p : PinsIn) (advance : Bool) :
    edgeTaken p advance s = [] := by
  simp [edgeTaken, wrReady, h]

theorem edgeTaken_writing {s : State} (h : s.burst.phase = .writing) (p : PinsIn) (advance : Bool) :
    edgeTaken p advance s = if s.wantsByte ∧ advance ∧ p.wrValid then [p.wrData] else [] := by
  unfold edgeTaken wrReady
  simp only [h, beq_self_eq_true, Bool.and_true, Bool.and_eq_true]
  exact if_congr (by tauto) rfl rfl

/-- The read stream shows the oldest byte (30_encoding R86). -/
theorem UnitFInv.edgeOut_eq {s : State} (inv : UnitFInv s) (p : PinsIn) (advance : Bool) :
    edgeOut p advance s = if rdValid advance s ∧ p.rdReady then s.contents.head?.toList else [] := by
  obtain ⟨o, ho, -, -, -, -, hrd⟩ := inv.outputPins_ok advance
  unfold edgeOut
  rw [ho]
  cases hv : rdValid advance s <;> simp [hrd, hv]

theorem UnitFInv.edgeOut_of_not_reading {s : State} (inv : UnitFInv s) (h : s.burst.phase ≠ .reading) (p : PinsIn)
    (advance : Bool) : edgeOut p advance s = [] := by
  simp [inv.edgeOut_eq, rdValid, h]

theorem UnitFInv.edgeOut_reading {s : State} (inv : UnitFInv s) (h : s.burst.phase = .reading) (p : PinsIn)
    (advance : Bool) :
    edgeOut p advance s = if s.hasByte ∧ advance ∧ p.rdReady then s.contents.head?.toList else [] := by
  rw [inv.edgeOut_eq]
  simp only [rdValid, h, beq_self_eq_true, Bool.and_true, Bool.and_eq_true]
  exact if_congr (by tauto) rfl rfl

/-! ## What an edge without reset does, by the phase of the port -/

section
variable {s u : State} {p : PinsIn} {advance : Bool}

/-- On an edge without reset the port works on the state that the edge sampled, which has the same unit F and burst. -/
theorem clockEdge_low_next (hrst : p.rst = false) (h : clockEdge p advance s = .next u) :
    ∃ w, w.cfg = s.cfg ∧ w.unitF = s.unitF ∧ w.burst = s.burst ∧ portCycle p advance w = .next u := by
  obtain ⟨o, -, ⟨hr, -⟩ | ⟨-, hport⟩⟩ := clockEdge_next h
  · simp [hrst] at hr
  · exact ⟨{ s.afterFull with pins := some o }, rfl, rfl, rfl, hport⟩

/-- The edge that takes a command latches it and leaves unit F alone (30_encoding R87). -/
theorem clockEdge_accepted {op : Op} {arg : Nat} (inv : Inv s) (hidle : s.burst.phase = .idle)
    (ha : s.cfg.argFits arg = true) (hrst : p.rst = false) (hvalid : p.cmdValid = true) (hcmd : p.cmd = cmdWord op arg)
    (h : clockEdge p advance s = .next u) :
    u.cfg = s.cfg ∧ u.unitF = s.unitF ∧ u.burst = Burst.accepted arg op := by
  obtain ⟨t, ht, hunit, hburst⟩ := inv.unitF.clockEdge_accepts advance hidle ha hrst hvalid hcmd
  cases ht.symm.trans h
  exact ⟨(clockEdge_keepsParameters h).1, hunit, hburst⟩

/-- A latched command waits, or is performed on the state that the edge sampled. -/
theorem clockEdge_command_next {i : Instr} (hph : s.burst.phase = .command i) (hrst : p.rst = false)
    (h : clockEdge p advance s = .next u) :
    u.cfg = s.cfg ∧ u.unitF = s.unitF ∧ u.burst = s.burst ∨
    u.burst = Burst.answer ∧ ∃ w v, w.cfg = s.cfg ∧ w.unitF = s.unitF ∧ exec i w = .next v ∧
      v.unitF = u.unitF ∧ v.response = u.response := by
  obtain ⟨w, hcfg, hunit, hburst, hport⟩ := clockEdge_low_next hrst h
  rw [portCycle_command (by rw [hburst, hph])] at hport
  split at hport
  · obtain ⟨v, hv, rfl⟩ := performCommand_next hport
    exact .inr ⟨rfl, w, v, hcfg, hunit, hv, rfl, rfl⟩
  · cases hport
    exact .inl ⟨hcfg, hunit, hburst⟩

/-- An edge of a WRITE burst takes no byte, takes one that is stored, or ends the burst with the remainder. -/
theorem UnitFInv.clockEdge_writing (inv : UnitFInv s) (hph : s.burst.phase = .writing) (hrst : p.rst = false)
    (h : clockEdge p advance s = .next u) :
    edgeTaken p advance s = [] ∧ u.cfg = s.cfg ∧ u.unitF = s.unitF ∧ u.burst = s.burst ∨
    s.wantsByte = true ∧ edgeTaken p advance s = [p.wrData] ∧ u.cfg = s.cfg ∧ u.unitF = (s.pushed p.wrData).unitF ∧
      u.burst = ⟨.writing, s.burst.index + 1, s.burst.count, s.burst.stream ++ [p.wrData]⟩ ∨
    s.wantsByte = false ∧ edgeTaken p advance s = [] ∧ u.unitF = s.unitF ∧ u.burst = Burst.answer ∧
      u.response = some ⟨s.burst.count - s.burst.index, s.burst.stream, []⟩ := by
  obtain ⟨w, hcfg, hunit, hburst, hport⟩ := clockEdge_low_next hrst h
  rw [portCycle_writing (by rw [hburst, hph]), writeCycle, wantsByte_congr hcfg hunit hburst] at hport
  rw [edgeTaken_writing hph]
  cases hwants : s.wantsByte with
  | false =>
    rw [hwants] at hport
    cases advance <;> cases hport
    · exact .inl ⟨by simp, hcfg, hunit, hburst⟩
    · exact .inr (.inr ⟨rfl, by simp, hunit, rfl, by simp [hburst]⟩)
  | true =>
    have invW : UnitFInv w := inv.congr hcfg hunit
    obtain ⟨hpush, -⟩ := invW.push1_of_wantsByte ((wantsByte_congr hcfg hunit hburst).trans hwants) p.wrData
    rw [hwants, hpush] at hport
    cases hgo : advance && p.wrValid with
    | false =>
      rw [hgo] at hport
      cases hport
      exact .inl ⟨by simpa using hgo, hcfg, hunit, hburst⟩
    | true =>
      rw [hgo] at hport
      cases hport
      exact .inr (.inl ⟨rfl, by simpa using hgo, hcfg, pushed_congr_unitF hunit _, by rw [hburst]⟩)

/-- An edge of a READ burst delivers no byte, delivers the oldest one, or ends the burst with the remainder. -/
theorem UnitFInv.clockEdge_reading (inv : UnitFInv s) (hph : s.burst.phase = .reading) (hrst : p.rst = false)
    (h : clockEdge p advance s = .next u) :
    edgeOut p advance s = [] ∧ u.cfg = s.cfg ∧ u.unitF = s.unitF ∧ u.burst = s.burst ∨
    s.hasByte = true ∧ (∃ b, s.contents = b :: s.popped.contents ∧ edgeOut p advance s = [b] ∧
      u.burst = ⟨.reading, s.burst.index + 1, s.burst.count, s.burst.stream ++ [b]⟩) ∧ u.unitF = s.popped.unitF ∨
    s.hasByte = false ∧ edgeOut p advance s = [] ∧ u.unitF = s.unitF ∧ u.burst = Burst.answer ∧
      u.response = some ⟨s.burst.count - s.burst.index, [], s.burst.stream⟩ := by
  obtain ⟨w, hcfg, hunit, hburst, hport⟩ := clockEdge_low_next hrst h
  rw [portCycle_reading (by rw [hburst, hph]), readCycle, hasByte_congr hunit hburst] at hport
  rw [inv.edgeOut_reading hph]
  cases hhas : s.hasByte with
  | false =>
    rw [hhas] at hport
    cases advance <;> cases hport
    · exact .inl ⟨by simp, hcfg, hunit, hburst⟩
    · exact .inr (.inr ⟨rfl, by simp, hunit, rfl, by simp [hburst]⟩)
  | true =>
    have invW : UnitFInv w := inv.congr hcfg hunit
    obtain ⟨b, hpop, hcontents, -⟩ := invW.pop1_of_hasByte ((hasByte_congr hunit hburst).trans hhas)
    rw [contents_congr hunit, contents_congr (popped_congr_unitF hunit)] at hcontents
    rw [hhas, hpop] at hport
    cases hgo : advance && p.rdReady with
    | false =>
      rw [hgo] at hport
      cases hport
      exact .inl ⟨by simp_all, hcfg, hunit, hburst⟩
    | true =>
      rw [hgo] at hport
      cases hport
      have hout : advance = true ∧ p.rdReady = true := by simpa using hgo
      exact .inr (.inl ⟨rfl, ⟨b, hcontents, by simp [hout, hcontents], by rw [hburst]⟩, popped_congr_unitF hunit⟩)

end

/-! ## Runs until the response -/

theorem runUntilResponse_responding {s : State} (h : s.burst.phase = .responding) (es : List (PinsIn × Bool)) :
    runUntilResponse es s = some ([], [], s) := by
  cases es <;> simp [runUntilResponse, h]

/-- A run from a state of an operation in progress is an edge and the run after it. -/
theorem runUntilResponse_cons {s t : State} {p : PinsIn} {advance : Bool} {es : List (PinsIn × Bool)}
    {taken out : List Byte} (hs : s.burst.phase ≠ .responding)
    (h : runUntilResponse ((p, advance) :: es) s = some (taken, out, t)) :
    ∃ u taken' out', clockEdge p advance s = .next u ∧ runUntilResponse es u = some (taken', out', t) ∧
      taken = edgeTaken p advance s ++ taken' ∧ out = edgeOut p advance s ++ out' := by
  rw [runUntilResponse, if_neg hs] at h
  split at h
  case h_1 u hedge =>
    split at h <;> cases h
    exact ⟨u, _, _, hedge, ‹_›, rfl, rfl⟩
  all_goals cases h

/-- What holds of the edge that ends an operation, and is carried back over every edge before it, holds of a whole run without
reset from a state of an operation in progress. -/
theorem runUntilResponse_induction {Q : State → List Byte → List Byte → State → Prop}
    (last : ∀ {s t : State} {p : PinsIn} {advance : Bool}, Inv s → p.rst = false → clockEdge p advance s = .next t →
      t.burst.phase = .responding → Q s (edgeTaken p advance s) (edgeOut p advance s) t)
    (edge : ∀ {s u t : State} {p : PinsIn} {advance : Bool} {taken out : List Byte}, Inv s → p.rst = false →
      clockEdge p advance s = .next u → u.burst.phase ≠ .responding → Q u taken out t →
      Q s (edgeTaken p advance s ++ taken) (edgeOut p advance s ++ out) t)
    {es : List (PinsIn × Bool)} {s t : State} {taken out : List Byte} (inv : Inv s)
    (hs : s.burst.phase ≠ .responding) (hrst : ∀ e ∈ es, e.1.rst = false)
    (h : runUntilResponse es s = some (taken, out, t)) : Q s taken out t := by
  induction es generalizing s taken out with
  | nil => simp [runUntilResponse, hs] at h
  | cons e es ih =>
    obtain ⟨u, taken', out', hedge, hrest, rfl, rfl⟩ := runUntilResponse_cons hs h
    have hlow : e.1.rst = false := hrst e (by simp)
    by_cases hu : u.burst.phase = .responding
    · rw [runUntilResponse_responding hu] at hrest
      cases hrest
      simpa using last inv hlow hedge hu
    · exact edge inv hlow hedge hu (ih (inv.clockEdge hedge) hu (fun e he => hrst e (by simp [he])) hrest)

/-- What happens from `s`, in a WRITE burst, to the response in `t`: the bytes still taken are as many as are wanted and have
room, and they are stored. -/
structure State.WriteEnds (s : State) (taken out : List Byte) (t : State) : Prop where
  noneOut : out = []
  length : taken.length = min (s.burst.count - s.burst.index) (s.usable - s.occ)
  unitF : t.unitF = (State.pushedAll taken s).unitF
  response : t.response = some ⟨s.burst.count - s.burst.index - taken.length, s.burst.stream ++ taken, []⟩

/-- What happens from `s`, in a READ burst, to the response in `t`: the bytes still delivered are the oldest held, as many as
are wanted. -/
structure State.ReadEnds (s : State) (taken out : List Byte) (t : State) : Prop where
  noneTaken : taken = []
  delivered : out = s.contents.take (s.burst.count - s.burst.index)
  unitF : t.unitF = (State.poppedAll out.length s).unitF
  response : t.response = some ⟨s.burst.count - s.burst.index - out.length, [], s.burst.stream ++ out⟩

/-- What happens from `s`, in which the command `i` is latched, to the response in `t`: no byte crosses a stream, and `i` is
performed on unit F as it is in `s`. -/
structure State.CommandEnds (i : Instr) (s : State) (taken out : List Byte) (t : State) : Prop where
  noneTaken : taken = []
  noneOut : out = []
  performed : ∃ w v, w.cfg = s.cfg ∧ w.unitF = s.unitF ∧ exec i w = .next v ∧ v.unitF = t.unitF ∧
    v.response = t.response

/-- Every run of a WRITE burst without reset ends as `State.WriteEnds` says. -/
theorem Inv.run_writing {s t : State} {es : List (PinsIn × Bool)} {taken out : List Byte} (inv : Inv s)
    (hph : s.burst.phase = .writing) (hrst : ∀ e ∈ es, e.1.rst = false)
    (h : runUntilResponse es s = some (taken, out, t)) : s.WriteEnds taken out t := by
  refine runUntilResponse_induction (Q := fun s taken out t => s.burst.phase = .writing → s.WriteEnds taken out t)
    ?last ?edge inv (by simp [hph]) hrst h hph
  case last =>
    intro s t p advance inv hlow hedge hend hph
    have hout := inv.unitF.edgeOut_of_not_reading (by simp [hph]) p advance
    obtain ⟨-, -, -, hb⟩ | ⟨-, -, -, -, hb⟩ | ⟨hwants, htaken, hunit, -, hresp⟩ :=
      inv.unitF.clockEdge_writing hph hlow hedge
    · simp [hb, hph] at hend
    · simp [hb] at hend
    · have hdone := mt inv.unitF.wantsByte_iff.mpr (by simp [hwants])
      exact ⟨hout, by rw [htaken, List.length_nil]; omega, by rw [htaken, hunit]; rfl, by simp [htaken, hresp]⟩
  case edge =>
    intro s u t p advance taken out inv hlow hedge hu ih hph
    have hout := inv.unitF.edgeOut_of_not_reading (by simp [hph]) p advance
    obtain ⟨htaken, hcfg, hunit, hb⟩ | ⟨hwants, htaken, hcfg, hunit, hb⟩ | ⟨-, -, -, hb, -⟩ :=
      inv.unitF.clockEdge_writing hph hlow hedge
    · obtain ⟨ho, hl, hf, hr⟩ := ih (by rw [hb, hph])
      rw [htaken, hout, List.nil_append, List.nil_append]
      rw [hb, occ_congr_unitF hunit, usable_congr_unitF hunit hcfg] at hl
      exact ⟨ho, hl, hf.trans (pushedAll_congr_unitF hunit _), by rw [hr, hb]⟩
    · obtain ⟨ho, hl, hf, hr⟩ := ih (by rw [hb])
      obtain ⟨hlt, hroom⟩ := inv.unitF.wantsByte_iff.mp hwants
      obtain ⟨-, hocc⟩ := inv.unitF.push1_of_wantsByte hwants p.wrData
      have husable : (s.pushed p.wrData).usable = s.usable := rfl
      simp only [hb, occ_congr_unitF hunit, usable_congr_unitF (s := s.pushed p.wrData) hunit hcfg, hocc, husable] at hl
      rw [htaken, hout]
      refine ⟨ho, ?_, hf.trans (pushedAll_congr_unitF hunit _), ?_⟩
      · simp only [List.cons_append, List.nil_append, List.length_cons]
        omega
      · rw [hr, hb]
        simp [Nat.sub_sub, Nat.add_assoc, Nat.add_comm]
    · simp [hb, Burst.answer] at hu

/-- Every run of a READ burst without reset ends as `State.ReadEnds` says. -/
theorem Inv.run_reading {s t : State} {es : List (PinsIn × Bool)} {taken out : List Byte} (inv : Inv s)
    (hph : s.burst.phase = .reading) (hrst : ∀ e ∈ es, e.1.rst = false)
    (h : runUntilResponse es s = some (taken, out, t)) : s.ReadEnds taken out t := by
  refine runUntilResponse_induction (Q := fun s taken out t => s.burst.phase = .reading → s.ReadEnds taken out t)
    ?last ?edge inv (by simp [hph]) hrst h hph
  case last =>
    intro s t p advance inv hlow hedge hend hph
    have htaken := edgeTaken_of_not_writing (s := s) (by simp [hph]) p advance
    obtain ⟨-, -, -, hb⟩ | ⟨-, ⟨b, -, -, hb⟩, -⟩ | ⟨hhas, hout, hunit, -, hresp⟩ :=
      inv.unitF.clockEdge_reading hph hlow hedge
    · simp [hb, hph] at hend
    · simp [hb] at hend
    · have hdone := mt inv.unitF.hasByte_iff.mpr (by simp [hhas])
      have hnone : s.contents.take (s.burst.count - s.burst.index) = [] := by
        rw [← List.length_eq_zero_iff, List.length_take, inv.unitF.contents_length]
        omega
      exact ⟨htaken, hout.trans hnone.symm, by rw [hout, hunit]; rfl, by simp [hout, hresp]⟩
  case edge =>
    intro s u t p advance taken out inv hlow hedge hu ih hph
    have htaken := edgeTaken_of_not_writing (s := s) (by simp [hph]) p advance
    obtain ⟨hout, hcfg, hunit, hb⟩ | ⟨hhas, ⟨b, hcontents, hout, hb⟩, hunit⟩ | ⟨-, -, -, hb, -⟩ :=
      inv.unitF.clockEdge_reading hph hlow hedge
    · obtain ⟨hk, ho, hf, hr⟩ := ih (by rw [hb, hph])
      rw [htaken, hout, List.nil_append, List.nil_append]
      rw [hb, contents_congr hunit] at ho
      exact ⟨hk, ho, hf.trans (poppedAll_congr_unitF hunit _), by rw [hr, hb]⟩
    · obtain ⟨hk, ho, hf, hr⟩ := ih (by rw [hb])
      obtain ⟨hlt, -⟩ := inv.unitF.hasByte_iff.mp hhas
      have hleft : s.burst.count - s.burst.index = s.burst.count - (s.burst.index + 1) + 1 := by omega
      rw [hb, contents_congr hunit] at ho
      rw [htaken, hout]
      refine ⟨hk, ?_, hf.trans (poppedAll_congr_unitF hunit _), ?_⟩
      · rw [hcontents, hleft, ho]
        simp
      · rw [hr, hb]
        simp [Nat.sub_sub, Nat.add_assoc, Nat.add_comm]
    · simp [hb, Burst.answer] at hu

/-- Every run of a latched command without reset ends as `State.CommandEnds` says. -/
theorem Inv.run_command {i : Instr} {s t : State} {es : List (PinsIn × Bool)} {taken out : List Byte} (inv : Inv s)
    (hph : s.burst.phase = .command i) (hrst : ∀ e ∈ es, e.1.rst = false)
    (h : runUntilResponse es s = some (taken, out, t)) : s.CommandEnds i taken out t := by
  refine runUntilResponse_induction
    (Q := fun s taken out t => s.burst.phase = .command i → s.CommandEnds i taken out t)
    ?last ?edge inv (by simp [hph]) hrst h hph
  case last =>
    intro s t p advance inv hlow hedge hend hph
    obtain ⟨-, -, hb⟩ | ⟨-, hperformed⟩ := clockEdge_command_next hph hlow hedge
    · simp [hb, hph] at hend
    · exact ⟨edgeTaken_of_not_writing (by simp [hph]) p advance,
        inv.unitF.edgeOut_of_not_reading (by simp [hph]) p advance, hperformed⟩
  case edge =>
    intro s u t p advance taken out inv hlow hedge hu ih hph
    obtain ⟨hcfg, hunit, hb⟩ | ⟨hb, -⟩ := clockEdge_command_next hph hlow hedge
    · obtain ⟨htaken, hout, w, v, hw, hwu, hexec⟩ := ih (by rw [hb, hph])
      rw [edgeTaken_of_not_writing (by simp [hph]), inv.unitF.edgeOut_of_not_reading (by simp [hph])]
      exact ⟨htaken, hout, w, v, hw.trans hcfg, hwu.trans hunit, hexec⟩
    · simp [hb, Burst.answer] at hu

/-! ## The ports add no behaviour -/

/-- Settles O49: the accepted burst in the state of unit F that the command found ends as the WRITE of any such data does. -/
theorem portWriteRefinesWrite : Obligations.PortWriteRefinesWrite := by
  intro s s₁ t p advance count es taken out inv hidle hfits hrst hvalid hcmd hedge hes hrun
  obtain ⟨hcfg, hunit, hburst⟩ := clockEdge_accepted inv hidle hfits hrst hvalid hcmd hedge
  obtain ⟨hout, hlen, hend, hresp⟩ := (inv.clockEdge hedge).run_writing (by rw [hburst]; rfl) hes hrun
  simp only [hburst, Burst.accepted, Nat.sub_zero, List.nil_append, occ_congr_unitF hunit,
    usable_congr_unitF hunit hcfg] at hlen hresp
  refine ⟨hout, by omega, hresp, fun data hdata hstart => ?_⟩
  subst hdata
  obtain ⟨u, hexec, hu, hur⟩ := inv.unitF.exec_write data
  have htake : data.take (s.usable - s.occ) = taken := by
    rw [← hstart, hlen, List.take_eq_take_iff]
    omega
  rw [htake] at hu hur
  exact ⟨u, hexec, by rw [hu, hend, pushedAll_congr_unitF hunit], by rw [hur, hresp, hlen]⟩

/-- Settles O50: the accepted burst in the state of unit F that the command found ends as the READ does. -/
theorem portReadRefinesRead : Obligations.PortReadRefinesRead := by
  intro s s₁ t p advance count es taken out inv hidle hfits hrst hvalid hcmd hedge hes hrun
  obtain ⟨-, hunit, hburst⟩ := clockEdge_accepted inv hidle hfits hrst hvalid hcmd hedge
  obtain ⟨htaken, hout, hend, hresp⟩ := (inv.clockEdge hedge).run_reading (by rw [hburst]; rfl) hes hrun
  simp only [hburst, Burst.accepted, Nat.sub_zero, List.nil_append, contents_congr hunit] at hout hresp
  have hlen : out.length = min count s.occ := by rw [hout, List.length_take, inv.unitF.contents_length]
  obtain ⟨u, hexec, hu, hur⟩ := inv.unitF.exec_read count
  rw [← hlen, ← hout] at hur
  exact ⟨htaken, u, hexec, by rw [hu, hend, poppedAll_congr_unitF hunit, hlen], hur.trans hresp.symm, hresp⟩

/-- A command without a stream is latched as the operation that its word decodes to. -/
theorem accepted_of_streamless {arg : Nat} {data : List Byte} {op : Op}
    (h : Instr.streamless (operationOf arg data op) = true) :
    Burst.accepted arg op = ⟨.command (operationOf arg data op), 0, 0, []⟩ := by
  cases op with
  | write => cases h
  | read => cases h
  | _ => rfl

/-- Settles O51: the latched command is performed on the state of unit F that it found. -/
theorem portCommandRefinesOperation : Obligations.PortCommandRefinesOperation := by
  intro s s₁ t p advance i es taken out inv hidle hi hdecode hrst hvalid hedge hes hrun
  obtain ⟨op, hop, hfits, rfl⟩ := decodeCmd_ok hdecode
  obtain ⟨hcfg, hunit, hburst⟩ :=
    clockEdge_accepted inv hidle hfits hrst hvalid (cmdWord_of_ofCode hop) hedge
  rw [accepted_of_streamless hi] at hburst
  obtain ⟨htaken, hout, w, v, hw, hwu, hexec, hv, hvr⟩ :=
    (inv.clockEdge hedge).run_command (by rw [hburst]) hes hrun
  obtain ⟨u, hu, huv, hur⟩ := exec_streamless_congr hi (hwu.trans hunit) (hw.trans hcfg) hexec
  exact ⟨htaken, hout, u, hu, huv.trans hv, fun hdraw => (hur hdraw).trans hvr⟩

/-! ## The output pins -/

/-- What the port does on an edge leaves the sampled output pins alone. -/
theorem portCycle_pins {s t : State} {p : PinsIn} {advance : Bool} (h : portCycle p advance s = .next t) :
    t.pins = s.pins := by
  cases hph : s.burst.phase with
  | idle =>
    rw [portCycle_idle hph] at h
    split at h
    · obtain ⟨op, -, -, rfl⟩ := acceptCommand_next h
      rfl
    · cases h; rfl
  | command i =>
    rw [portCycle_command hph] at h
    split at h
    · obtain ⟨u, hu, rfl⟩ := performCommand_next h
      obtain ⟨-, -, -, -, hpins⟩ := exec_hostFrame hu
      exact hpins
    · cases h; rfl
  | writing =>
    rw [portCycle_writing hph] at h
    obtain rfl | ⟨-, -, -, rfl⟩ | ⟨-, -, rfl⟩ := writeCycle_next h <;> rfl
  | reading =>
    rw [portCycle_reading hph] at h
    obtain rfl | ⟨-, -, -, b, d, -, rfl⟩ | ⟨-, -, rfl⟩ := readCycle_next h
    · rfl
    · exact s.popped_pins
    · rfl
  | responding => rw [portCycle_responding hph] at h; cases h; rfl

/-- The host has the output pins of the cycle, whatever the edge does (30_encoding R86). -/
theorem clockEdge_pins {s t : State} {p : PinsIn} {advance : Bool} (h : clockEdge p advance s = .next t) :
    ∃ o, outputPins advance s = .ok o ∧ t.pins = some o := by
  obtain ⟨o, ho, ⟨-, rfl⟩ | ⟨-, hport⟩⟩ := clockEdge_next h
  · exact ⟨o, ho, rfl⟩
  · exact ⟨o, ho, portCycle_pins hport⟩

/-- Settles O45: both the sample and the pins show `State.statusOut`. -/
theorem statusOutputs : Obligations.StatusOutputs := by
  intro s rest
  constructor
  · intro hpending
    exact ⟨_, _, _, _, _, _, step_cons hpending, rfl, rfl, rfl, rfl, rfl, rfl, rfl, rfl, rfl⟩
  · intro p advance t hpending hstep
    rw [step_cons hpending] at hstep
    obtain ⟨o, ho, hpins⟩ := clockEdge_pins hstep
    exact ⟨o, hpins, (outputPins_frame ho).1⟩

/-- Settles O47: the responding port shows the response it has, and its edge leaves an idle port. -/
theorem responseLastsOneCycle : Obligations.ResponseLastsOneCycle := by
  intro s p advance inv hph hrst
  obtain ⟨-, hsome⟩ : s.burst = Burst.answer ∧ s.response.isSome = true := by
    simpa [State.burstOk, hph] using inv.burst
  obtain ⟨r, hr⟩ := Option.isSome_iff_exists.mp hsome
  obtain ⟨o, w, ho, hedge, hcfg, hunit, hburst, hresp, hpins, -⟩ := inv.unitF.clockEdge_sampled advance hrst
  rw [portCycle_responding (by rw [hburst, hph])] at hedge
  obtain ⟨o', ho', -, hready, -, hrsp, -⟩ := inv.unitF.outputPins_ok advance
  cases ho.symm.trans ho'
  refine ⟨_, o, r, hedge, hpins, hr, by simp [hrsp, hph, hr], by simp [hready, hph], rfl, hresp, ?_⟩
  intro advance' o₁ h₁
  have idle : UnitFInv { w with burst := Burst.none } := inv.unitF.congr hcfg hunit
  obtain ⟨o₂, h₂, -, hready₂, -, hrsp₂, -⟩ := idle.outputPins_ok advance'
  cases h₁.symm.trans h₂
  exact ⟨hrsp₂, hready₂⟩

end Sys2Proof.Machine

/-! SUPPORT. The lifecycle rules of 40_lifecycle: INIT (R100 to R102), DEINIT (R104, R105), FLUSH (R108), and what an Empty
buffer shows and yields, in any state and with no invariant assumed. -/

namespace Sys2Proof.Machine

open Sys2Proof

/-! ## A buffer with no head -/

section
variable {s : State} (hh : s.head = none)
include hh

theorem empty_of_head_none : s.empty = true := by rw [State.empty, hh]; rfl

/-- By default an Empty buffer is never full (41_status R123). -/
theorem full_of_head_none_default (hp : s.present = true) (hpol : s.cfg.fullPolicy = .tailNextEqHead) :
    s.full = false := by
  simp [State.full, hp, hpol, hh]

/-- An Empty buffer whose one slot is the wasted one is full as well (41_status R125). -/
theorem full_of_head_none_oneSlotWasted (hp : s.present = true) (hpol : s.cfg.fullPolicy = .oneSlotWasted) :
    s.full = true ↔ s.capacity = 1 := by
  simp only [State.full, hp, hpol, occ_of_head_none hh, if_true, beq_iff_eq]
  exact eq_comm

theorem popAll_of_head_none (n : Nat) : popAll n s = .ok ([], s) := by
  cases n with
  | zero => rfl
  | succ n => rw [popAll, pop1_none hh]

/-- READ gets nothing from a buffer with no head, whether it is Empty or Deinitialized (42_transfer R151). -/
theorem execRead_of_head_none (n : Nat) : execRead n s = .next (s.respond n [] []) := by
  cases hp : s.present with
  | false => exact execRead_absent hp n
  | true => simp [execRead, hp, popAll_of_head_none hh n]

end

/-! ## INIT, DEINIT, FLUSH -/

theorem execInit_created {s : State} {c : Nat} (hc : 1 ≤ c) (hcap : s.cfg.capFits c = true) :
    execInit c s = .next ((s.created c).respond 0 [] []) :=
  if_neg (not_or.mpr ⟨by omega, by simp [hcap]⟩)

/-- Settles O17: whether INIT creates a buffer depends on its capacity and the parameters alone. -/
theorem initResult : Obligations.InitResult := by
  intro s c
  constructor
  · intro hc hcap
    have hh : ((s.created c).respond 0 [] []).head = none := rfl
    exact ⟨_, execInit_created hc hcap, rfl, empty_of_head_none hh, full_of_head_none_default hh rfl,
      full_of_head_none_oneSlotWasted hh rfl⟩
  · intro hbad
    exact if_pos hbad

/-- Settles O18: a Deinitialized buffer that meets the invariant already has the components DEINIT assigns. -/
theorem deinitResult : Obligations.DeinitResult := fun s =>
  ⟨s.absent.respond 0 [] [], rfl, rfl, fun inv hp => (inv.unitF_of_absent hp).symm, execWrite_absent rfl,
    execRead_absent rfl⟩

/-- Both sides are Deinitialized states that meet the invariant, and such states have the same components. -/
theorem UnitFInv.flushed_unitF_of_absent {s : State} (inv : UnitFInv s) (hp : s.present = false) :
    s.flushed.unitF = s.unitF :=
  (inv.flushedState.unitF_of_absent hp).trans (inv.unitF_of_absent hp).symm

/-- Settles O19: FLUSH leaves no head, which fixes the flags and leaves READ nothing to deliver. -/
theorem flushResult : Obligations.FlushResult := by
  intro s
  have hh : (s.flushed.respond 0 [] []).head = none := rfl
  exact ⟨_, rfl, rfl, empty_of_head_none hh, full_of_head_none_default hh, full_of_head_none_oneSlotWasted hh,
    UnitFInv.flushed_unitF_of_absent, execRead_of_head_none hh⟩

end Sys2Proof.Machine

/-! SUPPORT. The status rules of 41_status: ISEMPTY (R120, R121), ISFULL under both policies and on an absent buffer (R122
to R125), full by occupancy (R127), and how much a fresh buffer takes (R128). -/

namespace Sys2Proof.Machine

open Sys2Proof

/-! ## What full means, and when its evaluation is a draw (41_status R123 to R125) -/

section
variable {s : State}

/-- The default policy compares the slot the next write would use with the head (41_status R123). -/
theorem State.full_default_iff (hp : s.present = true) (hpol : s.cfg.fullPolicy = .tailNextEqHead) :
    s.full = true ↔ ∃ h, s.head = some h ∧ nextSlot s.capacity s.tail = h := by
  cases hh : s.head with
  | none => simp [full_of_head_none_default hh hp hpol]
  | some h =>
    simp only [State.full, hp, hpol, hh, if_true, Option.isSome_some, Bool.true_and, beq_iff_eq, Option.some.injEq,
      exists_eq_left']
    exact eq_comm

/-- The alternative policy keeps one slot unused (41_status R125). -/
theorem State.full_oneSlotWasted_iff (hp : s.present = true) (hpol : s.cfg.fullPolicy = .oneSlotWasted) :
    s.full = true ↔ s.occ + 1 = s.capacity := by
  simp [State.full, hp, hpol]

/-- Full is evaluated without a draw on a present buffer (41_status R123, R125). -/
theorem State.afterFull_draws_of_present (hp : s.present = true) : s.afterFull.draws = s.draws := by
  simp [State.fullIsDraw, hp]

/-- On an absent buffer full is a draw exactly under `ANY` (41_status R124). -/
theorem State.afterFull_draws_of_absent (hp : s.present = false) :
    s.afterFull.draws = if s.cfg.isfullAbsent = .any then s.draws + 1 else s.draws := by
  simp [State.fullIsDraw, hp]

end

/-- Settles O22: ISFULL answers `full`, whose cases are the branches of the policy and of `ISFULL_ABSENT`. -/
theorem isfullResult : Obligations.IsfullResult := by
  intro s
  refine ⟨s.full, s.afterFull.draws, rfl, fun hp hpol => ?_, fun hp hpol => ?_, fun hp habs => ?_, fun hp habs => ?_,
    fun hp habs => ?_⟩
  · exact ⟨State.afterFull_draws_of_present hp, State.full_default_iff hp hpol⟩
  · refine ⟨State.afterFull_draws_of_present hp, (State.full_oneSlotWasted_iff hp hpol).trans ?_⟩
    omega
  all_goals
    rw [State.afterFull_draws_of_absent hp, habs]
    simp [State.full, hp, habs]

/-! ## Full by occupancy -/

section
variable {s : State} (hp : s.present = true)
include hp

theorem State.usable_default (hpol : s.cfg.fullPolicy = .tailNextEqHead) : s.usable = s.capacity := by
  simp [State.usable, hp, hpol]

theorem State.usable_oneSlotWasted (hpol : s.cfg.fullPolicy = .oneSlotWasted) : s.usable = s.capacity - 1 := by
  simp [State.usable, hp, hpol]

/-- The index form of R125. A buffer that wastes a slot and holds a byte has two slots or more, so `tail + 2` wraps at
most once. -/
theorem UnitFInv.full_oneSlotWasted_index (inv : UnitFInv s) (hpol : s.cfg.fullPolicy = .oneSlotWasted) {h t : Nat}
    (hh : s.head = some h) (ht : s.tail = some t) : s.full = true ↔ (t + 2) % s.capacity = h := by
  obtain ⟨hnone, -⟩ | ⟨h', t', hh', ht', hlt, htlt⟩ := inv.indices
  · simp [hh] at hnone
  · cases hh.symm.trans hh'
    cases ht.symm.trans ht'
    have ho := occ_of_some hh ht hlt htlt
    have hroom : s.occ ≤ s.capacity - 1 := State.usable_oneSlotWasted hp hpol ▸ inv.occupancy
    have hwrap : (t + 2) % s.capacity = if t + 2 < s.capacity then t + 2 else t + 2 - s.capacity := by
      split
      · exact Nat.mod_eq_of_lt ‹_›
      · rw [Nat.mod_eq_sub_mod (by omega)]
        exact Nat.mod_eq_of_lt (by omega)
    rw [State.full_oneSlotWasted_iff hp hpol, hwrap]
    split at ho <;> split <;> omega

end

/-- Settles O23: full is the usable capacity reached, and under `ONE_SLOT_WASTED` the invariant bounds the occupancy by
`capacity - 1`. -/
theorem fullByOccupancy : Obligations.FullByOccupancy := by
  intro s inv hp
  obtain ⟨hcap, -⟩ := inv.capacity hp
  have hocc := inv.occupancy
  refine ⟨inv.full_iff hp, fun hpol => ?_, fun hpol => ⟨?_, ?_, ?_, ?_⟩⟩
  · rw [inv.full_iff hp, State.usable_default hp hpol]
  · rw [State.full_oneSlotWasted_iff hp hpol]; omega
  · rw [State.usable_oneSlotWasted hp hpol] at hocc
    rw [State.full_oneSlotWasted_iff hp hpol]; omega
  · exact fun hh => full_of_head_none_oneSlotWasted hh hp hpol
  · exact fun h t hh ht => inv.full_oneSlotWasted_index hp hpol hh ht

/-! ## How much a fresh buffer takes -/

/-- A full buffer rejects the first byte, and the loop of WRITE looks at no other (42_transfer R141). -/
theorem pushAll_of_full {s : State} (hf : s.full = true) (data : List Byte) : pushAll data s = .ok (0, s) := by
  cases data with
  | nil => rfl
  | cons b bs => simp [pushAll, push1, hf]

theorem execWrite_of_full {s : State} (hf : s.full = true) (data : List Byte) :
    execWrite data.length data s = .next (s.respond data.length [] []) := by
  cases hp : s.present with
  | false => exact execWrite_absent hp data
  | true => simp [execWrite, hp, pushAll_of_full hf]

/-- A WRITE of data that fits takes all of it (42_transfer R142). -/
theorem UnitFInv.execWrite_fits {s : State} (inv : UnitFInv s) (hp : s.present = true) {data : List Byte}
    (hfit : data.length ≤ s.usable - s.occ) :
    execWrite data.length data s = .next ((State.pushedAll data s).respond 0 data []) := by
  rw [inv.execWrite_eq hp, List.take_of_length_le hfit, Nat.min_eq_left hfit, Nat.sub_self]

/-- A WRITE of as many bytes as there is room for takes them all and leaves the buffer full (41_status R127). -/
theorem UnitFInv.execWrite_fills {s : State} (inv : UnitFInv s) (hp : s.present = true) {data : List Byte}
    (hfill : data.length = s.usable - s.occ) :
    ∃ u, execWrite data.length data s = .next u ∧ u.response = some ⟨0, data, []⟩ ∧ u.full = true ∧
      u.contents = s.contents ++ data := by
  obtain ⟨inv', hcontents, hocc'⟩ := inv.pushedAll hp hfill.le
  have hocc := inv.occupancy
  have husable : (State.pushedAll data s).usable = s.usable := usable_congr (by simp) (by simp) (by simp)
  have hfull : (State.pushedAll data s).full = true := by
    rw [inv'.full_iff (by simpa using hp), hocc', husable]
    omega
  exact ⟨_, inv.execWrite_fits hp hfill.le, rfl, hfull, hcontents⟩

/-- Settles O35: the data is as long as the usable capacity under either policy, so it fills the buffer, and the full
buffer rejects the byte after it. -/
theorem freshBufferCapacity : Obligations.FreshBufferCapacity := by
  intro s c data b hc hcap hw hdefault hwasted
  have inv := UnitFInv.createdState s hc hcap hw
  have hfill : data.length = (s.created c).usable - (s.created c).occ := by
    rw [occ_of_head_none rfl, Nat.sub_zero]
    cases hpol : s.cfg.fullPolicy with
    | tailNextEqHead => exact (hdefault hpol).trans (State.usable_default (s := s.created c) rfl hpol).symm
    | oneSlotWasted => exact (hwasted hpol).trans (State.usable_oneSlotWasted (s := s.created c) rfl hpol).symm
  obtain ⟨u, hu, hresponse, hfull, hcontents⟩ := (inv.respondState 0 [] []).execWrite_fills rfl hfill
  exact ⟨_, u, _, execInit_created hc hcap, rfl, hu, hresponse, hfull, hcontents,
    execWrite_of_full hfull [b], rfl, rfl⟩

/-! ## ISEMPTY -/

/-- Of the four named states the first two are those with no head (10_state R32). -/
theorem UnitFInv.head_none_iff_classify {s : State} (inv : UnitFInv s) :
    s.head = none ↔ s.classify = .deinitialized ∨ s.classify = .empty := by
  cases hp : s.present with
  | false => simp [State.classify, hp, (inv.absent hp).2.1]
  | true =>
    cases hh : s.head with
    | none => simp [State.classify, hp, hh]
    | some h => cases hf : s.full <;> simp [State.classify, hp, hh, hf]

/-- Settles O21: `empty` is that head is NONE, and the invariant ties head to tail and to the named state. -/
theorem isemptyResult : Obligations.IsemptyResult := by
  intro s
  refine ⟨?_, fun inv => ⟨inv.head_none_iff, inv.head_none_iff_classify⟩⟩
  cases hh : s.head <;> simp [exec, execIsempty, State.respond, State.empty, boolRsp, hh]

end Sys2Proof.Machine

/-! SUPPORT. The transfer rules of 42_transfer: the byte steps (R140, R150), WRITE and READ in closed form (R142, R143, R152,
R153), bursts as single-byte transfers (R145, R155), the restart at slot 0 (R146), the order of the bytes (R156, R157), and the
transition table (R160). -/

namespace Sys2Proof.Machine

open Sys2Proof

/-! ## Views of a state that a response or a burst does not change, and of an empty one -/

section fields
variable (v : Nat) (taken out : List Byte) (s : State)

@[simp] theorem State.respond_occ : (s.respond v taken out).occ = s.occ := rfl
@[simp] theorem State.respond_usable : (s.respond v taken out).usable = s.usable := rfl
@[simp] theorem State.respond_contents : (s.respond v taken out).contents = s.contents := rfl

@[simp] theorem State.pushedAll_usable (bs : List Byte) : (State.pushedAll bs s).usable = s.usable :=
  usable_congr (by simp) (by simp) (by simp)

@[simp] theorem State.poppedAll_usable (n : Nat) : (State.poppedAll n s).usable = s.usable :=
  usable_congr (by simp) (by simp) (by simp)

end fields

theorem contents_of_head_none {s : State} (hh : s.head = none) : s.contents = [] := by
  simp [State.contents, hh]

theorem classify_of_head_none {s : State} (hp : s.present = true) (hh : s.head = none) : s.classify = .empty := by
  simp [State.classify, hp, hh]

/-! ## The slots of a burst -/

theorem ringSlot_zero {c x : Nat} (hx : x < c) : ringSlot c x 0 = x := Nat.mod_eq_of_lt hx

/-- Walking on from the next slot is walking one further. -/
theorem ringSlot_nextSlot (c x j : Nat) : ringSlot c (nextSlot c (some x)) j = ringSlot c x (j + 1) := by
  simp only [ringSlot, nextSlot, Nat.mod_add_mod]
  congr 1; omega

/-- Fewer than `capacity` slots on, the walk has not come back to where it started. -/
theorem ringSlot_succ_ne {c x j : Nat} (hx : x < c) (hj : j + 1 < c) : ringSlot c x (j + 1) ≠ x := by
  rw [ringSlot_eq hx hj]
  split <;> omega

/-- Where the j-th slot of a burst is, from the tail of a buffer that is not empty (42_transfer R143). -/
theorem ringSlot_behind (c k j : Nat) : ringSlot c (nextSlot c (some k)) j = (k + 1 + j) % c := by
  rw [ringSlot_nextSlot, ringSlot, Nat.add_right_comm, Nat.add_assoc]

/-- Where the j-th slot of a burst is in an empty buffer (42_transfer R143). -/
theorem ringSlot_fresh {c j : Nat} (hj : j < c) : ringSlot c (nextSlot c none) j = j := by
  rw [nextSlot_none, ringSlot, Nat.zero_add, Nat.mod_eq_of_lt hj]

theorem State.pushedAll_head_some {s : State} {h : Nat} (hh : s.head = some h) (bs : List Byte) :
    (State.pushedAll bs s).head = some h := by
  induction bs generalizing s with
  | nil => exact hh
  | cons b bs ih => exact ih (by simp [hh])

/-- The head becomes slot 0 if it was NONE, and else stays (42_transfer R143). -/
theorem State.pushedAll_head {s : State} {bs : List Byte} (hpos : 1 ≤ bs.length) :
    (State.pushedAll bs s).head = some (s.head.getD 0) := by
  cases bs with
  | nil => cases hpos
  | cons b bs => exact State.pushedAll_head_some (by cases hh : s.head <;> simp [hh]) bs

section
variable {s : State} (hc : 1 ≤ s.capacity)
include hc

/-- The tail is the slot of the last accepted byte (42_transfer R143). -/
theorem State.pushedAll_tail {bs : List Byte} (hpos : 1 ≤ bs.length) :
    (State.pushedAll bs s).tail = some (ringSlot s.capacity (nextSlot s.capacity s.tail) (bs.length - 1)) := by
  induction bs generalizing s with
  | nil => cases hpos
  | cons b bs ih =>
    cases bs with
    | nil => simp [ringSlot_zero (nextSlot_lt hc s.tail)]
    | cons b' bs =>
      rw [State.pushedAll_cons, ih (s := s.pushed b) hc (by simp)]
      simp [ringSlot_nextSlot]

/-- Slots that no accepted byte goes to keep theirs (42_transfer R143). -/
theorem State.pushedAll_read_other {bs : List Byte} {x : Nat}
    (hx : ∀ j, j < bs.length → x ≠ ringSlot s.capacity (nextSlot s.capacity s.tail) j) :
    (State.pushedAll bs s).store.read x = s.store.read x := by
  induction bs generalizing s with
  | nil => rfl
  | cons b bs ih =>
    have hfirst : x ≠ nextSlot s.capacity s.tail := by
      simpa [ringSlot_zero (nextSlot_lt hc s.tail)] using hx 0 (by simp)
    rw [State.pushedAll_cons, ih (s := s.pushed b) hc, State.pushed_store, Memory.read_write_other _ _ hfirst]
    intro j hj
    simpa [ringSlot_nextSlot] using hx (j + 1) (by simpa using hj)

/-- The j-th accepted byte goes to the j-th slot from the one behind the tail (42_transfer R143). -/
theorem State.pushedAll_read {bs : List Byte} {j : Nat} (hle : bs.length ≤ s.capacity) (hj : j < bs.length) :
    (State.pushedAll bs s).store.read (ringSlot s.capacity (nextSlot s.capacity s.tail) j) = bs[j]? := by
  induction bs generalizing s j with
  | nil => cases hj
  | cons b bs ih =>
    simp only [List.length_cons] at hle hj
    have hlt := nextSlot_lt hc s.tail
    cases j with
    | zero =>
      rw [ringSlot_zero hlt, State.pushedAll_cons, State.pushedAll_read_other (s := s.pushed b) hc]
      · simp [Memory.read_write_same]
      · intro i hi
        simpa [ringSlot_nextSlot] using (ringSlot_succ_ne hlt (by omega)).symm
    | succ j =>
      have hrest := ih (s := s.pushed b) hc (by simp; omega) (j := j) (by omega)
      simpa [ringSlot_nextSlot] using hrest

/-- The burst into an empty buffer starts at slot 0 (42_transfer R143). -/
theorem State.pushedAll_fresh {bs : List Byte} (hh : s.head = none) (ht : s.tail = none) (hpos : 1 ≤ bs.length)
    (hle : bs.length ≤ s.capacity) :
    (State.pushedAll bs s).head = some 0 ∧ (State.pushedAll bs s).tail = some (bs.length - 1) ∧
      (∀ j, j < bs.length → (State.pushedAll bs s).store.read j = bs[j]?) ∧
      (∀ x, bs.length ≤ x → (State.pushedAll bs s).store.read x = s.store.read x) := by
  have hslot : ∀ j, j < bs.length → ringSlot s.capacity (nextSlot s.capacity s.tail) j = j := fun j hj => by
    rw [ht, ringSlot_fresh (by omega)]
  refine ⟨by rw [State.pushedAll_head hpos, hh]; rfl, ?_, fun j hj => ?_, fun x hx => ?_⟩
  · rw [State.pushedAll_tail hc hpos, hslot _ (by omega)]
  · rw [← State.pushedAll_read hc hle hj, hslot j hj]
  · refine State.pushedAll_read_other hc fun j hj => ?_
    rw [hslot j hj]; omega

/-- The burst into a buffer that holds bytes goes on behind the tail (42_transfer R143). -/
theorem State.pushedAll_behind {bs : List Byte} {h k : Nat} (hh : s.head = some h) (hk : s.tail = some k)
    (hpos : 1 ≤ bs.length) (hle : bs.length ≤ s.capacity) :
    (State.pushedAll bs s).head = some h ∧ (State.pushedAll bs s).tail = some ((k + bs.length) % s.capacity) ∧
      (∀ j, j < bs.length → (State.pushedAll bs s).store.read ((k + 1 + j) % s.capacity) = bs[j]?) ∧
      (∀ x, (∀ j, j < bs.length → x ≠ (k + 1 + j) % s.capacity) →
        (State.pushedAll bs s).store.read x = s.store.read x) := by
  have hslot : ∀ j, ringSlot s.capacity (nextSlot s.capacity s.tail) j = (k + 1 + j) % s.capacity := fun j => by
    rw [hk, ringSlot_behind]
  refine ⟨State.pushedAll_head_some hh bs, ?_, fun j hj => ?_, fun x hx => ?_⟩
  · have hlast : k + 1 + (bs.length - 1) = k + bs.length := by omega
    rw [State.pushedAll_tail hc hpos, hslot, hlast]
  · rw [← State.pushedAll_read hc hle hj, hslot]
  · exact State.pushedAll_read_other hc fun j hj => by rw [hslot]; exact hx j hj

end

/-- Short of the last byte, a READ moves the head on and leaves the tail (42_transfer R153). -/
theorem UnitFInv.poppedAll_indices {s : State} (inv : UnitFInv s) {h n : Nat} (hh : s.head = some h) (hn : n < s.occ) :
    (State.poppedAll n s).head = some (ringSlot s.capacity h n) ∧ (State.poppedAll n s).tail = s.tail := by
  induction n generalizing s h with
  | zero => exact ⟨by simp [hh, ringSlot_zero (inv.head_lt hh)], rfl⟩
  | succ n ih =>
    have hpo := inv.popped_occ hh
    have hne : s.head ≠ s.tail := fun heq => by
      have := (inv.head_eq_tail_iff hh).mp heq
      omega
    obtain ⟨hhead, htail⟩ := ih (inv.popped hh) (h := nextSlot s.capacity s.head) (by simp [hne]) (by omega)
    refine ⟨?_, by rw [State.poppedAll_succ, htail]; simp [hne]⟩
    rw [State.poppedAll_succ, hhead, State.popped_capacity, hh, ringSlot_nextSlot]

/-! ## WRITE and READ on any buffer

An absent buffer has no room and holds no byte, so the closed forms of 42_transfer R142 and R152 cover it too. -/

section
variable {s : State} (inv : UnitFInv s)
include inv

theorem UnitFInv.exec_write_eq (data : List Byte) :
    Machine.exec (.write data.length data) s =
      .next ((State.pushedAll (data.take (s.usable - s.occ)) s).respond
        (data.length - min data.length (s.usable - s.occ)) (data.take (s.usable - s.occ)) []) := by
  cases hp : s.present with
  | true => exact inv.execWrite_eq hp data
  | false =>
    have hroom : s.usable - s.occ = 0 := by simp [State.usable, hp]
    exact (execWrite_absent hp data).trans (by simp [hroom])

theorem UnitFInv.exec_read_eq (n : Nat) :
    Machine.exec (.read n) s =
      .next ((State.poppedAll (min n s.occ) s).respond (n - min n s.occ) [] (s.contents.take n)) := by
  cases hh : s.head with
  | some h => exact inv.execRead_eq (inv.present_of_head hh) n
  | none => exact (execRead_of_head_none hh n).trans (by simp [occ_of_head_none hh, contents_of_head_none hh])

/-- What the bytes that a WRITE accepts do, on any buffer (42_transfer R143). -/
theorem UnitFInv.accepts (data : List Byte) :
    UnitFInv (State.pushedAll (data.take (s.usable - s.occ)) s) ∧
      (State.pushedAll (data.take (s.usable - s.occ)) s).contents = s.contents ++ data.take (s.usable - s.occ) ∧
      (State.pushedAll (data.take (s.usable - s.occ)) s).occ = s.occ + min data.length (s.usable - s.occ) := by
  cases hp : s.present with
  | true => simpa [Nat.min_comm] using inv.pushedAll hp (bs := data.take (s.usable - s.occ)) (by simp)
  | false =>
    have hroom : s.usable - s.occ = 0 := by simp [State.usable, hp]
    simp [hroom, inv]

theorem UnitFInv.take_min_occ (n : Nat) : s.contents.take (min n s.occ) = s.contents.take n := by
  rw [← inv.contents_length, ← List.take_eq_take_min]

theorem UnitFInv.drop_min_occ (n : Nat) : s.contents.drop (min n s.occ) = s.contents.drop n := by
  rw [List.drop_eq_drop_iff, inv.contents_length]; omega

end

/-! ## FIFO order and conservation (R156, R157) -/

/-- From `s` to `t` the bytes `taken` went in at the end and the bytes `out` came out at the front, in order, and
the parameters and the capacity stayed. -/
structure State.Conserves (s t : State) (taken out : List Byte) : Prop where
  inv : UnitFInv t
  cfg : t.cfg = s.cfg
  usable : t.usable = s.usable
  capacity : t.capacity = s.capacity
  order : s.contents ++ taken = out ++ t.contents

theorem State.Conserves.trans {s t u : State} {taken taken' out out' : List Byte} (h : s.Conserves t taken out)
    (h' : t.Conserves u taken' out') : s.Conserves u (taken ++ taken') (out ++ out') where
  inv := h'.inv
  cfg := h'.cfg.trans h.cfg
  usable := h'.usable.trans h.usable
  capacity := h'.capacity.trans h.capacity
  order := by rw [← List.append_assoc, h.order, List.append_assoc, h'.order, List.append_assoc]

/-- An operation that neither creates, destroys nor flushes the buffer conserves the bytes of its response. -/
theorem UnitFInv.exec_conserves {i : Instr} {s : State} (inv : UnitFInv s) (hresp : s.response = none)
    (hk : Instr.keepsBuffer i = true) (hw : WellFormed s.cfg i = true) :
    ∃ t, Machine.exec i s = .next t ∧
      s.Conserves t (takenBytes t.response.toList) (deliveredBytes t.response.toList) := by
  cases i with
  | init c => cases hk
  | deinit => cases hk
  | flush => cases hk
  | isempty => exact ⟨_, rfl, inv.respondState _ _ _, rfl, rfl, rfl, List.append_nil _⟩
  | isfull => exact ⟨_, rfl, inv.afterFullState.respondState _ _ _, rfl, rfl, rfl, List.append_nil _⟩
  | write count data =>
    obtain ⟨-, rfl⟩ : s.cfg.argFits count = true ∧ data.length = count := by simpa [WellFormed] using hw
    obtain ⟨inv', hcontents, -⟩ := inv.accepts data
    exact ⟨_, inv.exec_write_eq data, inv'.respondState _ _ _, by simp, by simp, by simp,
      by simp [takenBytes, deliveredBytes, hcontents]⟩
  | read n =>
    obtain ⟨inv', hcontents, -⟩ := inv.poppedAll (n := min n s.occ) (by omega)
    exact ⟨_, inv.exec_read_eq n, inv'.respondState _ _ _, by simp, by simp, by simp,
      by simp [takenBytes, deliveredBytes, hcontents, inv.drop_min_occ]⟩
  | decode hi mid lo =>
    refine ⟨_, rfl, inv.congr rfl rfl, rfl, rfl, rfl, ?_⟩
    simp only [hresp]
    exact List.append_nil _

theorem takenBytes_append (rs rs' : List Response) : takenBytes (rs ++ rs') = takenBytes rs ++ takenBytes rs' := by
  simp [takenBytes]

theorem deliveredBytes_append (rs rs' : List Response) :
    deliveredBytes (rs ++ rs') = deliveredBytes rs ++ deliveredBytes rs' := by
  simp [deliveredBytes]

theorem UnitFInv.runOps_conserves {is : List Instr} {s : State} (inv : UnitFInv s)
    (his : ∀ i ∈ is, Instr.keepsBuffer i = true ∧ WellFormed s.cfg i = true) :
    ∃ rs t, runOps is s = some (rs, t) ∧ s.Conserves t (takenBytes rs) (deliveredBytes rs) := by
  induction is generalizing s with
  | nil => exact ⟨[], s, rfl, inv, rfl, rfl, rfl, List.append_nil _⟩
  | cons i is ih =>
    obtain ⟨hk, hw⟩ := his i (by simp)
    obtain ⟨t, ht, first⟩ :=
      UnitFInv.exec_conserves (s := { s with response := none }) (inv.congr rfl rfl) rfl hk hw
    have hcfg : t.cfg = s.cfg := first.cfg
    obtain ⟨rs, u, hu, rest⟩ := ih first.inv fun j hj => hcfg ▸ his j (by simp [hj])
    refine ⟨_, u, runOps_cons ht hu, ?_⟩
    rw [takenBytes_append, deliveredBytes_append]
    have both := first.trans rest
    exact ⟨both.inv, both.cfg, both.usable, both.capacity, both.order⟩

/-- Settles O33, by induction on the list of operations; the lengths of the two sides give the occupancy. -/
theorem fifoOrderAndConservation : Obligations.FifoOrderAndConservation := by
  intro is s inv his
  obtain ⟨rs, t, ht, conserves⟩ := inv.runOps_conserves his
  have hlength := congrArg List.length conserves.order
  simp only [List.length_append, inv.contents_length, conserves.inv.contents_length] at hlength
  exact ⟨rs, t, ht, conserves.inv, conserves.order, hlength, conserves.inv.occupancy, conserves.usable,
    conserves.capacity⟩

/-! ## The byte steps (R140, R150) -/

/-- An accepted WRITE of one byte is one write byte step. -/
theorem UnitFInv.execWrite_one {s : State} (inv : UnitFInv s) (hp : s.present = true) (hf : s.full = false) (b : Byte) :
    execWrite 1 [b] s = .next ((s.pushed b).respond 0 [b] []) := by
  simp [execWrite, pushAll, hp, inv.push1_eq hp, hf]

/-- A READ of one byte from a buffer that is not empty is one read byte step. -/
theorem UnitFInv.execRead_one {s : State} (inv : UnitFInv s) {h : Nat} {b : Byte} (hh : s.head = some h)
    (hb : s.store.read h = some b) : execRead 1 s = .next (s.popped.respond 0 [] [b]) := by
  simp [execRead, popAll, inv.present_of_head hh, inv.pop1_some hh hb]

/-- The successor of an existing index, with the wrap tested at slot `capacity - 1` (00_scope R13). -/
theorem nextSlot_some_last {c i : Nat} (h : i < c) : nextSlot c (some i) = if i = c - 1 then 0 else i + 1 := by
  rw [nextSlot_some h]
  split <;> split <;> omega

theorem UnitFInv.nextSlot_tail {s : State} (inv : UnitFInv s) :
    nextSlot s.capacity s.tail = match s.tail with
      | none => 0
      | some k => if k = s.capacity - 1 then 0 else k + 1 := by
  obtain ⟨-, ht⟩ | ⟨h, t, -, ht, -, hlt⟩ := inv.indices
  · simp [ht]
  · simp [ht, nextSlot_some_last hlt]

/-- Settles O25: the full check decides between the two exits of the write byte step. -/
theorem writeByteStep : Obligations.WriteByteStep := by
  intro s b inv hp
  refine ⟨fun hf => execWrite_of_full hf [b], fun hf => ⟨_, inv.execWrite_one hp hf b, rfl, ?_, ?_, rfl⟩⟩
  · exact congrArg some inv.nextSlot_tail
  · rintro k ⟨⟩
    exact ⟨Memory.read_write_same _ _ _, fun x hx => Memory.read_write_other _ _ hx⟩

/-- Settles O28: head against tail decides whether the delivered byte was the last. -/
theorem readByteStep : Obligations.ReadByteStep := by
  intro s inv hp
  refine ⟨fun hh => execRead_of_head_none hh 1, fun h hh => ?_⟩
  obtain ⟨b, hb⟩ := inv.head_byte hh
  have hone : s.tail = some h ↔ s.occ = 1 := by rw [← inv.head_eq_tail_iff hh, hh, eq_comm]
  refine ⟨b, hb, hone, fun hlast => ?_, fun hmore => ?_⟩
  · refine (inv.execRead_one hh hb).trans ?_
    simp [State.popped_eq, State.respond, hh, hlast]
  · refine (inv.execRead_one hh hb).trans ?_
    simp [State.popped_eq, State.respond, hh, hmore.symm, nextSlot_some_last (inv.head_lt hh)]

/-! ## WRITE and READ in closed form (R142, R143, R152, R153) -/

theorem take_min_length (data : List Byte) (n : Nat) : data.take (min data.length n) = data.take n := by
  rw [Nat.min_comm, ← List.take_eq_take_min]

/-- Settles O26: the accepted bytes are as many as there is room for. -/
theorem writeResult : Obligations.WriteResult := by
  rintro s _ data inv rfl
  obtain ⟨inv', hcontents, hocc⟩ := inv.accepts data
  refine ⟨_, inv.exec_write_eq data, ?_, ?_, hocc, by simp, fun hsome => ?_, fun hp => ?_⟩
  · simp [take_min_length]
  · simpa [take_min_length] using hcontents
  · have hne : (State.pushedAll (data.take (s.usable - s.occ)) s).head ≠ none := fun hnone => by
      rw [occ_of_head_none hnone] at hocc
      omega
    simpa [State.empty, Option.isSome_iff_ne_none] using hne
  · exact (inv'.respondState _ _ _).full_iff (by simpa using hp)

/-- Settles O27: an accepted byte shows that there is a slot, and then the slots of the burst say where each byte went. -/
theorem writeEffect : Obligations.WriteEffect := by
  rintro s t _ data a inv rfl ha ht
  have hexec := inv.exec_write_eq data
  obtain ⟨-, hcontents, hocc⟩ := inv.accepts data
  rw [← take_min_length, ← ha] at hexec hcontents hocc
  cases hexec.symm.trans ht
  have hlen : (data.take a).length = a := by simp; omega
  have hroom := s.usable_le_capacity
  have hdata : ∀ j, j < a → (data.take a)[j]? = data[j]? := fun j hj => List.getElem?_take_of_lt hj
  refine ⟨execWrite_frame ht, ?none, fun hpos hh => ?empty, fun hpos h k hh hk => ?nonempty, hcontents, hocc⟩
  case none => rintro rfl; rfl
  case empty =>
    obtain ⟨hhead, htail, hstored, hothers⟩ := State.pushedAll_fresh (s := s) (bs := data.take a) (by omega) hh
      (inv.head_none_iff.mp hh) (by omega) (by omega)
    rw [hlen] at htail hstored hothers
    exact ⟨hhead, htail, fun j hj => (hstored j hj).trans (hdata j hj), hothers⟩
  case nonempty =>
    obtain ⟨hhead, htail, hstored, hothers⟩ := State.pushedAll_behind (s := s) (bs := data.take a) (by omega) hh hk
      (by omega) (by omega)
    rw [hlen] at htail hstored hothers
    exact ⟨hhead, htail, fun j hj => (hstored j hj).trans (hdata j hj), hothers⟩

/-- A READ of all that is held leaves no head and no tail (42_transfer R153). -/
theorem UnitFInv.poppedAll_all {s : State} (inv : UnitFInv s) :
    (State.poppedAll s.occ s).head = none ∧ (State.poppedAll s.occ s).tail = none := by
  obtain ⟨inv', -, hocc⟩ := inv.poppedAll le_rfl
  have hhead := inv'.occ_zero_iff.mp (by omega)
  exact ⟨hhead, inv'.head_none_iff.mp hhead⟩

/-- The j-th byte of the contents stands in the j-th slot from the head (10_state R30). -/
theorem UnitFInv.contents_getElem? {s : State} (inv : UnitFInv s) {h j : Nat} (hh : s.head = some h) (hj : j < s.occ) :
    s.contents[j]? = s.store.read (ringSlot s.capacity h j) := by
  obtain ⟨inv', hcontents, hocc⟩ := inv.poppedAll hj.le
  obtain ⟨hhead, -⟩ := inv.poppedAll_indices hh hj
  obtain ⟨b, hb⟩ := inv'.head_byte hhead
  have hfront := hcontents.symm.trans (inv'.contents_popped hhead hb)
  have hread : s.store.read (ringSlot s.capacity h j) = some b := by simpa using hb
  rw [hread, ← Nat.add_zero j, ← List.getElem?_drop, hfront]
  rfl

/-- Settles O29: the last byte held is what makes the difference to the indices. -/
theorem readResult : Obligations.ReadResult := by
  intro s n inv
  obtain ⟨-, hcontents, hocc⟩ := inv.poppedAll (n := min n s.occ) (by omega)
  refine ⟨_, inv.exec_read_eq n, by rw [inv.take_min_occ]; rfl, fun h hh j hj => ?bytes, fun hzero => ?nothing,
    fun h hh hpos hlt => inv.poppedAll_indices hh hlt, fun hall => ?all, ?frame, hcontents, hocc⟩
  case bytes =>
    rw [List.getElem?_take_of_lt hj]
    exact inv.contents_getElem? hh (by omega)
  case nothing => rw [hzero]; exact ⟨rfl, rfl⟩
  case all => rw [hall]; exact inv.poppedAll_all
  case frame => rw [State.poppedAll_frame]; rfl

/-! ## Bursts as single-byte transfers (R145, R155) -/

theorem State.pushedAll_append (bs bs' : List Byte) (s : State) :
    State.pushedAll (bs ++ bs') s = State.pushedAll bs' (State.pushedAll bs s) := by
  induction bs generalizing s with
  | nil => rfl
  | cons b bs ih => exact ih (s.pushed b)

theorem State.poppedAll_add (m n : Nat) (s : State) :
    State.poppedAll (m + n) s = State.poppedAll n (State.poppedAll m s) := by
  induction m generalizing s with
  | zero => rw [Nat.zero_add]; rfl
  | succ m ih => rw [Nat.add_right_comm]; exact ih s.popped

section
variable {s : State} (inv : UnitFInv s)
include inv

/-- One single-byte WRITE of a run, in which the response before it is cleared: it uses up one place if there is one. -/
theorem UnitFInv.exec_push (b : Byte) :
    ∃ t, Machine.exec (.push b) { s with response := none } = .next t ∧ UnitFInv t ∧
      t.unitF = (State.pushedAll ([b].take (s.usable - s.occ)) s).unitF ∧
      t.usable - t.occ = s.usable - s.occ - 1 ∧
      t.response = some ⟨1 - min 1 (s.usable - s.occ), [b].take (s.usable - s.occ), []⟩ := by
  have cleared : UnitFInv { s with response := none } := inv.congr rfl rfl
  obtain ⟨t, ht, hunit₀, hresponse⟩ := cleared.exec_write [b]
  have hunit : t.unitF = (State.pushedAll ([b].take (s.usable - s.occ)) s).unitF :=
    hunit₀.trans (pushedAll_congr_unitF (s := s) (u := { s with response := none }) rfl _)
  have hcfg : t.cfg = (State.pushedAll ([b].take (s.usable - s.occ)) s).cfg := by
    simpa using (exec_hostFrame ht).1
  obtain ⟨inv', -, hocc⟩ := inv.accepts [b]
  refine ⟨t, ht, inv'.congr hcfg hunit, hunit, ?_, hresponse⟩
  rw [usable_congr_unitF hunit hcfg, occ_congr_unitF hunit, hocc, State.pushedAll_usable, List.length_singleton]
  omega

/-- One single-byte READ of a run, in which the response before it is cleared. -/
theorem UnitFInv.exec_pop :
    ∃ t, Machine.exec .pop { s with response := none } = .next t ∧ UnitFInv t ∧
      t.unitF = (State.poppedAll (min 1 s.occ) s).unitF ∧ t.occ = s.occ - 1 ∧ t.contents = s.contents.drop 1 ∧
      t.response = some ⟨1 - min 1 s.occ, [], s.contents.take 1⟩ := by
  have cleared : UnitFInv { s with response := none } := inv.congr rfl rfl
  obtain ⟨t, ht, hunit₀, hresponse⟩ := cleared.exec_read 1
  have hunit : t.unitF = (State.poppedAll (min 1 s.occ) s).unitF :=
    hunit₀.trans (poppedAll_congr_unitF (s := s) (u := { s with response := none }) rfl _)
  have hcfg : t.cfg = (State.poppedAll (min 1 s.occ) s).cfg := by simpa using (exec_hostFrame ht).1
  obtain ⟨inv', hcontents, hocc⟩ := inv.poppedAll (n := min 1 s.occ) (by omega)
  refine ⟨t, ht, inv'.congr hcfg hunit, hunit, ?_, ?_, hresponse⟩
  · rw [occ_congr_unitF hunit, hocc]; omega
  · rw [contents_congr hunit, hcontents, inv.drop_min_occ]

end

/-- The first byte takes a place if there is one, and the others have the room that is left. -/
theorem UnitFInv.runOps_pushes {s : State} (inv : UnitFInv s) (data : List Byte) :
    ∃ rs u, runOps (data.map Instr.push) s = some (rs, u) ∧
      u.unitF = (State.pushedAll (data.take (s.usable - s.occ)) s).unitF ∧
      remainderSum rs = data.length - min data.length (s.usable - s.occ) ∧
      takenBytes rs = data.take (s.usable - s.occ) := by
  induction data generalizing s with
  | nil => exact ⟨[], s, rfl, by simp, by simp [remainderSum], by simp [takenBytes]⟩
  | cons b bs ih =>
    obtain ⟨t, ht, inv', hfirst, hroom, hresponse⟩ := inv.exec_push b
    obtain ⟨rs, u, hrun, hrest, hsum, htaken⟩ := ih inv'
    have hsplit : (b :: bs).take (s.usable - s.occ) =
        [b].take (s.usable - s.occ) ++ bs.take (s.usable - s.occ - 1) :=
      List.take_append (l₁ := [b])
    rw [hroom] at hrest hsum htaken
    refine ⟨_, u, runOps_cons ht hrun, ?_, ?_, ?_⟩
    · rw [hrest, hsplit, State.pushedAll_append, pushedAll_congr_unitF hfirst]
    · rw [remainderSum] at hsum
      simp [remainderSum, hresponse, hsum]; omega
    · rw [takenBytes_append, htaken, hsplit, hresponse]
      simp [takenBytes]

/-- The first READ takes the oldest byte if there is one, and the others find what is left. -/
theorem UnitFInv.runOps_pops {s : State} (inv : UnitFInv s) (n : Nat) :
    ∃ rs u, runOps (List.replicate n Instr.pop) s = some (rs, u) ∧
      u.unitF = (State.poppedAll (min n s.occ) s).unitF ∧
      remainderSum rs = n - min n s.occ ∧ deliveredBytes rs = s.contents.take n := by
  induction n generalizing s with
  | zero => exact ⟨[], s, rfl, by simp, by simp [remainderSum], by simp [deliveredBytes]⟩
  | succ n ih =>
    obtain ⟨t, ht, inv', hfirst, hocc, hcontents, hresponse⟩ := inv.exec_pop
    obtain ⟨rs, u, hrun, hrest, hsum, hout⟩ := ih inv'
    have hsplit : min (n + 1) s.occ = min 1 s.occ + min n (s.occ - 1) := by omega
    rw [hocc] at hrest hsum
    rw [hcontents] at hout
    refine ⟨_, u, runOps_cons ht hrun, ?_, ?_, ?_⟩
    · rw [hrest, hsplit, State.poppedAll_add, poppedAll_congr_unitF hfirst]
    · rw [remainderSum] at hsum
      simp [remainderSum, hresponse, hsum]; omega
    · rw [deliveredBytes_append, hout, hresponse, Nat.add_comm n 1, List.take_add]
      simp [deliveredBytes]

/-- Settles O30: both leave what the accepted bytes leave. -/
theorem writeAsSingleWrites : Obligations.WriteAsSingleWrites := by
  intro s data inv _
  obtain ⟨rs, u, hrun, hunit, hsum, htaken⟩ := inv.runOps_pushes data
  exact ⟨_, _, rs, u, inv.exec_write_eq data, rfl, hrun, hunit, hsum, htaken⟩

/-- Settles O31: both leave what the delivered bytes leave. -/
theorem readAsSingleReads : Obligations.ReadAsSingleReads := by
  intro s n inv _
  obtain ⟨rs, u, hrun, hunit, hsum, hout⟩ := inv.runOps_pops n
  exact ⟨_, _, rs, u, inv.exec_read_eq n, rfl, hrun, hunit, hsum, hout⟩

/-! ## Empty and non-empty again (R146, R156) -/

/-- Settles O32: the data is all that is held, so the READ delivers it whole. -/
theorem writeThenReadRoundTrip : Obligations.WriteThenReadRoundTrip := by
  intro s data inv hp hh hfit
  have hroom : data.length ≤ s.usable - s.occ := by rwa [occ_of_head_none hh]
  obtain ⟨inv', hcontents, hocc⟩ := inv.pushedAll hp hroom
  rw [contents_of_head_none hh, List.nil_append] at hcontents
  rw [occ_of_head_none hh, Nat.zero_add] at hocc
  have invT := inv'.respondState 0 data []
  refine ⟨_, _, inv.execWrite_fits hp hroom, rfl, invT.exec_read_eq data.length, ?_, ?_⟩
  · simp [hocc, hcontents]
  · obtain ⟨hhead, -⟩ := invT.poppedAll_all
    refine classify_of_head_none (by simpa using hp) ?_
    simpa [hocc] using hhead

/-- An empty buffer puts the next accepted byte into slot 0, wherever its head stood before (42_transfer R146). -/
theorem UnitFInv.restart {t : State} (inv : UnitFInv t) (hp : t.present = true) (hh : t.head = none)
    (hus : 1 ≤ t.usable) (b : Byte) :
    ∃ u, Machine.exec (.write 1 [b]) t = .next u ∧ u.head = some 0 ∧ u.tail = some 0 ∧ u.store.read 0 = some b ∧
      u.contents = [b] := by
  have ht : t.tail = none := inv.head_none_iff.mp hh
  have hf : t.full = false := by
    rw [← Bool.not_eq_true, inv.full_iff hp, occ_of_head_none hh]; omega
  refine ⟨_, inv.execWrite_one hp hf b, by simp [hh], by simp [ht], by simp [ht, Memory.read_write_same], ?_⟩
  rw [State.respond_contents, inv.pushed_contents hp hf b, contents_of_head_none hh, List.nil_append]

/-- Settles O34: READ and FLUSH leave an empty buffer alike. -/
theorem restartAtSlotZero : Obligations.RestartAtSlotZero := by
  rintro s n b inv hp hus hall i (rfl | rfl)
  · obtain ⟨inv', -, -⟩ := inv.poppedAll le_rfl
    have hexec := inv.exec_read_eq n
    rw [Nat.min_eq_right hall] at hexec
    obtain ⟨u, hu⟩ := (inv'.respondState (n - s.occ) [] (s.contents.take n)).restart (by simpa using hp)
      inv.poppedAll_all.1 (by simpa using hus) b
    exact ⟨_, u, hexec, hu⟩
  · obtain ⟨u, hu⟩ := (inv.flushedState.respondState 0 [] []).restart hp rfl hus b
    exact ⟨_, u, rfl, hu⟩

/-! ## The named states by occupancy (10_state R32) -/

theorem State.classify_deinitialized_iff {s : State} : s.classify = .deinitialized ↔ s.present = false := by
  cases hp : s.present with
  | false => simp [State.classify, hp]
  | true => cases hh : s.head <;> cases hf : s.full <;> simp [State.classify, hp, hh, hf]

section
variable {s : State} (inv : UnitFInv s)
include inv

theorem UnitFInv.classify_of_present (hp : s.present = true) :
    s.classify = if s.occ = 0 then .empty else if s.occ = s.usable then .full else .partiallyFilled := by
  simp [State.classify, hp, inv.full_iff hp, inv.occ_zero_iff]

theorem UnitFInv.classify_present_iffs :
    (s.classify = .empty ↔ s.present = true ∧ s.occ = 0) ∧
    (s.classify = .full ↔ s.present = true ∧ 0 < s.occ ∧ s.occ = s.usable) ∧
    (s.classify = .partiallyFilled ↔ s.present = true ∧ 0 < s.occ ∧ s.occ < s.usable) := by
  have hocc := inv.occupancy
  cases hp : s.present with
  | false => simp [State.classify, hp]
  | true => rw [inv.classify_of_present hp]; split_ifs <;> simp <;> omega

end

/-! ## The transition table (R160) -/

theorem State.flushed_classify (s : State) :
    s.flushed.classify = if s.classify = .deinitialized then .deinitialized else .empty := by
  simp only [State.classify_deinitialized_iff]
  cases hp : s.present <;> simp [State.classify, hp]

section
variable {s : State} (inv : UnitFInv s)
include inv

/-- What a WRITE does to the numbers that the named state depends on. -/
theorem UnitFInv.exec_write_numbers (data : List Byte) :
    ∃ t r, Machine.exec (.write data.length data) s = .next t ∧ t.response = some r ∧ UnitFInv t ∧
      t.present = s.present ∧ t.usable = s.usable ∧ t.occ = s.occ + min data.length (s.usable - s.occ) ∧
      r.value = data.length - min data.length (s.usable - s.occ) := by
  obtain ⟨inv', -, hocc⟩ := inv.accepts data
  exact ⟨_, _, inv.exec_write_eq data, rfl, inv'.respondState _ _ _, by simp, by simp, hocc, rfl⟩

/-- What a READ does to the numbers that the named state depends on. -/
theorem UnitFInv.exec_read_numbers (n : Nat) :
    ∃ t r, Machine.exec (.read n) s = .next t ∧ t.response = some r ∧ UnitFInv t ∧
      t.present = s.present ∧ t.usable = s.usable ∧ t.occ = s.occ - min n s.occ ∧ r.value = n - min n s.occ := by
  obtain ⟨inv', -, hocc⟩ := inv.poppedAll (n := min n s.occ) (by omega)
  exact ⟨_, _, inv.exec_read_eq n, rfl, inv'.respondState _ _ _, by simp, by simp, hocc, rfl⟩

end

/-- Settles O36: the named state is fixed by presence, occupancy and usable capacity, and the closed forms say what happens to
these. -/
theorem transitionTable : Obligations.TransitionTable := by
  intro s inv
  refine ⟨fun c hc hcap => ⟨_, execInit_created hc hcap, rfl, rfl⟩, fun c hbad => ⟨_, if_pos hbad, rfl⟩, ⟨_, rfl, rfl⟩,
    ⟨_, rfl, s.flushed_classify⟩, fun data => ?write, fun n => ?read, (repeatedOperations s 0).2,
    fun hpart => ?part, rfl⟩
  case part =>
    obtain ⟨-, -, hiff⟩ := inv.classify_present_iffs
    exact (hiff.mp hpart).2
  case write =>
    obtain ⟨t, r, ht, hr, inv', hpresent, husable, hocc, hvalue⟩ := inv.exec_write_numbers data
    refine ⟨t, r, ht, hr, ?_⟩
    simp only [State.classify_deinitialized_iff, inv.classify_present_iffs, inv'.classify_present_iffs, hpresent]
    cases hp : s.present with
    | false =>
      have hus : s.usable = 0 := by simp [State.usable, hp]
      simp [hvalue, hus]
    | true =>
      simp only [true_and]
      refine ⟨nofun, ?_, ?_, ?_, ?_, ?_, ?_⟩ <;> omega
  case read =>
    obtain ⟨t, r, ht, hr, inv', hpresent, husable, hocc, hvalue⟩ := inv.exec_read_numbers n
    refine ⟨t, r, ht, hr, ?_⟩
    simp only [State.classify_deinitialized_iff, inv.classify_present_iffs, inv'.classify_present_iffs, hpresent]
    cases hp : s.present with
    | false =>
      obtain ⟨-, hhead, -⟩ := inv.absent hp
      simp [hvalue, occ_of_head_none hhead]
    | true =>
      have hcap := inv.occupancy
      simp only [true_and]
      refine ⟨nofun, ?_, ?_, ?_, ?_, ?_, ?_⟩ <;> omega

end Sys2Proof.Machine

/-! SUPPORT. The decoder rules of 43_decoder: the field function by ranges and its preimages (R171, R173), the bytes that pack a
value (R176), and that unit D and unit F have nothing in common (R175). -/

namespace Sys2Proof.Machine

open Sys2Proof

/-! ## The field function and the bytes that pack a field value -/

/-- The byte that packs the field value `v` in the `k`-th block of 64 bytes, counted cyclically from `0x30`: block 0 is the
in-range code of 43_decoder R176. -/
def packedByte (v k : Nat) : Byte := BitVec.ofNat 8 (0x30 + v + 64 * k)

theorem eq_packedByte_iff {b : Byte} {v k : Nat} : b = packedByte v k ↔ b.toNat = (0x30 + v + 64 * k) % 256 := by
  rw [← BitVec.toNat_inj, packedByte, BitVec.toNat_ofNat]

theorem packedByte_toNat (v k : Nat) : (packedByte v k).toNat = (0x30 + v + 64 * k) % 256 := BitVec.toNat_ofNat _ _

/-- A field value is the byte less the start of the byte's block (43_decoder R173, the table of ranges). -/
theorem decField_ranges (b : Byte) :
    (b.toNat ≤ 0x2F → (decField b).toNat = b.toNat + 16) ∧
    (0x30 ≤ b.toNat → b.toNat ≤ 0x6F → (decField b).toNat = b.toNat - 0x30) ∧
    (0x70 ≤ b.toNat → b.toNat ≤ 0xAF → (decField b).toNat = b.toNat - 0x70) ∧
    (0xB0 ≤ b.toNat → b.toNat ≤ 0xEF → (decField b).toNat = b.toNat - 0xB0) ∧
    (0xF0 ≤ b.toNat → (decField b).toNat = b.toNat - 0xF0) := by
  have hb := b.isLt
  rw [decField_toNat]
  refine ⟨?_, ?_, ?_, ?_, ?_⟩ <;> omega

theorem decField_of_inRange {b : Byte} (hlo : 0x30 ≤ b.toNat) (hhi : b.toNat ≤ 0x6F) :
    (decField b).toNat = b.toNat - 0x30 :=
  (decField_ranges b).2.1 hlo hhi

theorem packedByte_inRange {v : Nat} (hv : v < 64) : (packedByte v 0).toNat = 0x30 + v := by
  rw [packedByte_toNat]; omega

theorem decField_packedByte {v : Nat} (hv : v < 64) : (decField (packedByte v 0)).toNat = v := by
  have hbyte := packedByte_inRange hv
  rw [decField_of_inRange (by omega) (by omega), hbyte]
  omega

/-- The preimages of a field value are its bytes in the four blocks (43_decoder R173). -/
theorem decField_eq_iff (b : Byte) (v : BitVec 6) :
    decField b = v ↔
      b = packedByte v.toNat 0 ∨ b = packedByte v.toNat 1 ∨ b = packedByte v.toNat 2 ∨ b = packedByte v.toNat 3 := by
  have hb := b.isLt
  have hv := v.isLt
  rw [← BitVec.toNat_inj, decField_toNat]
  simp only [eq_packedByte_iff]
  omega

theorem packedByte_blocks_nodup (v : Nat) :
    [packedByte v 0, packedByte v 1, packedByte v 2, packedByte v 3].Nodup := by
  simp only [List.nodup_cons, List.mem_cons, List.not_mem_nil, List.nodup_nil, not_false_eq_true, or_false, and_true,
    eq_packedByte_iff, packedByte_toNat]
  omega

/-- Settles O42: the forms are one residue mod 64, and the preimages are the value's byte in each block of 64. -/
theorem fieldForms : Obligations.FieldForms := by
  refine ⟨fun b => ?forms, fun v => ⟨_, _, _, _, packedByte_blocks_nodup v.toNat, fun b => decField_eq_iff b v⟩⟩
  case forms =>
    have hsum := decField_toNat b
    exact ⟨by omega, hsum, by omega, decField_ranges b⟩

/-- Settles O43: an in-range byte is fixed by its field, and the three fields are the base-64 digits of the value. -/
theorem inRangeBijection : Obligations.InRangeBijection := by
  intro v hv
  have hhigh : v / 4096 < 64 := by omega
  have hmid : v / 64 % 64 < 64 := by omega
  have hlow : v % 64 < 64 := by omega
  refine ⟨packedByte (v / 4096) 0, packedByte (v / 64 % 64) 0, packedByte (v % 64) 0,
    ⟨packedByte_inRange hhigh, packedByte_inRange hmid, packedByte_inRange hlow⟩, ?decodes, ?unique⟩
  case decodes =>
    rw [decTriple_toNat, decField_packedByte hhigh, decField_packedByte hmid, decField_packedByte hlow]
    omega
  case unique =>
    intro h m l hrange hdec
    obtain ⟨⟨hlo, hhi⟩, ⟨mlo, mhi⟩, ⟨llo, lhi⟩⟩ : (0x30 ≤ h.toNat ∧ h.toNat ≤ 0x6F) ∧ (0x30 ≤ m.toNat ∧ m.toNat ≤ 0x6F) ∧
        (0x30 ≤ l.toNat ∧ l.toNat ≤ 0x6F) := by simpa using hrange
    rw [decTriple_toNat, decField_of_inRange hlo hhi, decField_of_inRange mlo mhi, decField_of_inRange llo lhi] at hdec
    simp only [eq_packedByte_iff]
    refine ⟨?_, ?_, ?_⟩ <;> omega

/-! ## Unit F does not look at DEC_OUT (43_decoder R175)

Every shared operation of unit F, run with another `DEC_OUT` word, has the outcome it had, with that word in its next state. -/

/-- The state with `d` as the last `DEC_OUT` word. -/
def State.withDecOut (d : Option DecOut) (s : State) : State := { s with decOut := d }

section
variable (d : Option DecOut) (s : State)

@[simp] theorem State.withDecOut_present : (s.withDecOut d).present = s.present := rfl
@[simp] theorem State.withDecOut_capacity : (s.withDecOut d).capacity = s.capacity := rfl
@[simp] theorem State.withDecOut_head : (s.withDecOut d).head = s.head := rfl
@[simp] theorem State.withDecOut_tail : (s.withDecOut d).tail = s.tail := rfl
@[simp] theorem State.withDecOut_store : (s.withDecOut d).store = s.store := rfl
@[simp] theorem State.withDecOut_hasSlot (i : Nat) : (s.withDecOut d).hasSlot i = s.hasSlot i := rfl
@[simp] theorem State.withDecOut_full : (s.withDecOut d).full = s.full := rfl

theorem memWrite_withDecOut (i : Nat) (b : Byte) :
    memWrite i b (s.withDecOut d) = (memWrite i b s).map (State.withDecOut d) := by
  cases hslot : s.hasSlot i with
  | false => rw [memWrite_noSlot hslot, memWrite_noSlot (s := s.withDecOut d) hslot]; rfl
  | true => rw [memWrite_hasSlot hslot, memWrite_hasSlot (s := s.withDecOut d) hslot]; rfl

theorem memRead_withDecOut (i : Nat) :
    memRead i (s.withDecOut d) = (memRead i s).map (Prod.map id (State.withDecOut d)) := by
  cases hslot : s.hasSlot i with
  | false => rw [memRead_noSlot hslot, memRead_noSlot (s := s.withDecOut d) hslot]; rfl
  | true =>
    simp only [memRead, State.withDecOut_hasSlot, State.withDecOut_store, hslot, if_true]
    cases s.store.read i <;> rfl

theorem push1_withDecOut (b : Byte) :
    push1 b (s.withDecOut d) = (push1 b s).map (Option.map (State.withDecOut d)) := by
  simp only [push1, State.withDecOut_full, State.withDecOut_capacity, State.withDecOut_tail, memWrite_withDecOut]
  split
  · rfl
  · cases memWrite (nextSlot s.capacity s.tail) b s <;> rfl

theorem pop1_withDecOut :
    pop1 (s.withDecOut d) = (pop1 s).map (Option.map (Prod.map id (State.withDecOut d))) := by
  simp only [pop1, State.withDecOut_head, memRead_withDecOut]
  split
  · rfl
  · rename_i h _
    cases memRead h s with
    | error f => rfl
    | ok r =>
      by_cases heq : s.head = s.tail
      · simp only [Except.map, Option.map, Prod.map, State.withDecOut_tail, heq, if_true]; rfl
      · simp only [Except.map, Option.map, Prod.map, State.withDecOut_tail, heq, if_false]; rfl

theorem pushAll_withDecOut (data : List Byte) :
    pushAll data (s.withDecOut d) = (pushAll data s).map (Prod.map id (State.withDecOut d)) := by
  induction data generalizing s with
  | nil => rfl
  | cons b bs ih =>
    simp only [pushAll, push1_withDecOut]
    match push1 b s with
    | .error f => rfl
    | .ok none => rfl
    | .ok (some t) =>
      simp only [Except.map, Option.map, ih]
      cases pushAll bs t <;> rfl

theorem popAll_withDecOut (n : Nat) :
    popAll n (s.withDecOut d) = (popAll n s).map (Prod.map id (State.withDecOut d)) := by
  induction n generalizing s with
  | zero => rfl
  | succ n ih =>
    simp only [popAll, pop1_withDecOut]
    match pop1 s with
    | .error f => rfl
    | .ok none => rfl
    | .ok (some (b, t)) =>
      simp only [Except.map, Option.map, Prod.map, ih]
      cases popAll n t <;> rfl

end

section
variable {s t : State} (d : Option DecOut)

theorem execInit_withDecOut {c : Nat} (h : execInit c s = .next t) :
    execInit c (s.withDecOut d) = .next (t.withDecOut d) := by
  unfold execInit at h
  split at h
  case isTrue hbad => cases h; exact if_pos hbad
  case isFalse hok => cases h; exact if_neg hok

theorem execWrite_withDecOut {count : Nat} {data : List Byte} (h : execWrite count data s = .next t) :
    execWrite count data (s.withDecOut d) = .next (t.withDecOut d) := by
  simp only [execWrite, State.withDecOut_present, pushAll_withDecOut] at h ⊢
  split at h
  case isFalse => cases h
  case isTrue hlen =>
    rw [if_pos hlen]
    cases hp : s.present with
    | false => simp only [hp] at h; cases h; rfl
    | true =>
      simp only [hp] at h
      cases hpush : pushAll data s with
      | error f => simp [hpush] at h
      | ok r => simp only [hpush] at h; cases h; rfl

theorem execRead_withDecOut {count : Nat} (h : execRead count s = .next t) :
    execRead count (s.withDecOut d) = .next (t.withDecOut d) := by
  simp only [execRead, State.withDecOut_present, popAll_withDecOut] at h ⊢
  cases hp : s.present with
  | false => simp only [hp] at h; cases h; rfl
  | true =>
    simp only [hp] at h
    cases hpop : popAll count s with
    | error f => simp [hpop] at h
    | ok r => simp only [hpop] at h; cases h; rfl

/-- An operation of unit F does the same whatever `DEC_OUT` is, and leaves it as it is. -/
theorem exec_withDecOut {i : Instr} (hunit : ∀ hi mid lo, i ≠ .decode hi mid lo) (h : exec i s = .next t) :
    exec i (s.withDecOut d) = .next (t.withDecOut d) := by
  cases i with
  | init c => exact execInit_withDecOut d h
  | deinit => cases h; rfl
  | flush => cases h; rfl
  | isempty => cases h; rfl
  | isfull => cases h; rfl
  | write count data => exact execWrite_withDecOut d h
  | read count => exact execRead_withDecOut d h
  | decode hi mid lo => exact absurd rfl (hunit hi mid lo)

end

/-- Settles O44: unit D is served in every phase of the port, by a value of its word; unit F does not look at DEC_OUT. -/
theorem unitsShareNothing : Obligations.UnitsShareNothing :=
  ⟨fun word => ⟨decTriple (word.extractLsb' 16 8) (word.extractLsb' 8 8) (word.extractLsb' 0 8),
      fun _ _ hpending => step_cons hpending⟩,
    fun _ _ _ d hunit h => exec_withDecOut d hunit h⟩

end Sys2Proof.Machine

/-! SUPPORT. The exception rules of 60_exceptions: no run from a state that meets the invariant faults (R190), and the order in
which WRITE and READ check (R196). -/

namespace Sys2Proof.Machine

open Sys2Proof

/-! ## No action of the host faults -/

theorem ne_fault_of_completes {o : Out} (h : ∃ t, o = .next t) (f : Fault) : o ≠ .fault f := by
  obtain ⟨t, rfl⟩ := h
  nofun

/-- A command word at the pins is taken or refused, in any state (30_encoding R71, R74). -/
theorem acceptCommand_ne_fault (word : Nat) (s : State) (f : Fault) : acceptCommand word s ≠ .fault f := by
  cases ha : s.cfg.argFits (cmdArg word) with
  | false => simp [acceptCommand, ha]
  | true =>
    cases hop : Op.ofCode (cmdOp word) with
    | none => simp [acceptCommand, ha, hop]
    | some op => exact ne_fault_of_completes ⟨_, acceptCommand_of_op ha hop⟩ f

/-- A busy port does not look at `cmd_valid` (70_reset R231). -/
theorem portCycle_busy_cmdValid {s : State} (h : s.burst.phase ≠ .idle) (p : PinsIn) (advance v : Bool) :
    portCycle { p with cmdValid := v } advance s = portCycle p advance s := by
  cases hph : s.burst.phase with
  | idle => exact absurd hph h
  | command i => rw [portCycle_command hph, portCycle_command hph]
  | writing => rw [portCycle_writing hph, portCycle_writing hph]; rfl
  | reading => rw [portCycle_reading hph, portCycle_reading hph]; rfl
  | responding => rw [portCycle_responding hph, portCycle_responding hph]

section
variable {s : State} (inv : UnitFInv s)
include inv

/-- A presented word is an operation, which completes, or it is refused. -/
theorem UnitFInv.runPresented_ne_fault (p : Presented) (f : Fault) : runPresented p s ≠ .fault f := by
  cases hd : decode s.cfg p with
  | error e => simp [runPresented, hd]
  | ok i =>
    obtain ⟨t, ht, -⟩ := inv.exec_completes (decode_wellFormed hd)
    rw [runPresented_of_decode hd, ht]
    nofun

theorem UnitFInv.serveOp_ne_fault (p : Presented) (f : Fault) : serveOp p s ≠ .fault f := by
  cases p with
  | dec word => exact inv.runPresented_ne_fault (.dec word) f
  | cmd word data =>
    by_cases hidle : s.burst.phase = .idle
    · rw [serveOp_cmd_idle hidle]
      exact inv.runPresented_ne_fault (.cmd word data) f
    · exact ne_fault_of_completes ⟨s, serveOp_cmd_busy hidle word data⟩ f

/-- An idle port takes or refuses a command; a busy one completes its cycle as it would with no command on the pins. -/
theorem UnitFInv.portCycle_ne_fault (hb : s.burstOk = true) (p : PinsIn) (advance : Bool) (f : Fault) :
    portCycle p advance s ≠ .fault f := by
  by_cases hidle : s.burst.phase = .idle
  · rw [portCycle_idle hidle]
    split
    · exact acceptCommand_ne_fault p.cmd s f
    · nofun
  · rw [← portCycle_busy_cmdValid hidle p advance false]
    exact ne_fault_of_completes (inv.portCycle_completes advance hb fun h => absurd h Bool.false_ne_true) f

theorem UnitFInv.clockEdge_ne_fault (hb : s.burstOk = true) (p : PinsIn) (advance : Bool) (f : Fault) :
    clockEdge p advance s ≠ .fault f := by
  obtain ⟨o, -, hedge⟩ := inv.clockEdge_eq p advance
  rw [hedge]
  split
  · nofun
  · have sampled : UnitFInv { s.afterFull with pins := some o } := inv.congr rfl rfl
    exact sampled.portCycle_ne_fault hb p advance f

end

/-- No action of the host makes a state that meets the invariant fault, a word that is no operation among them
(20_memory R54). -/
theorem Inv.step_ne_fault {s : State} (inv : Inv s) (f : Fault) : step s ≠ .fault f := by
  cases hpending : s.pending with
  | nil => rw [step_nil hpending]; nofun
  | cons r rest =>
    rw [step_cons hpending]
    have unitF : UnitFInv { s with pending := rest } := inv.unitF.congr rfl rfl
    cases r with
    | op p => exact unitF.serveOp_ne_fault p f
    | reset => nofun
    | sample => nofun
    | edge p advance => exact unitF.clockEdge_ne_fault inv.burst p advance f

/-! ## No run faults -/

/-- A run of at least one step that faults does so at the first step or after it. -/
theorem run_succ_fault {M : Host.Core} {n : Nat} {s : M.State} {f : M.Fault} (h : M.run (n + 1) s = .fault f) :
    M.step s = .fault f ∨ ∃ t, M.step s = .next t ∧ M.run n t = .fault f := by
  rw [Host.Core.run] at h
  split at h
  case h_1 t hstep => exact .inr ⟨t, hstep, h⟩
  case h_2 g hstep => cases h; exact .inl hstep
  case h_3 => cases h

/-- Settles O12, by induction on the number of steps: a step does not fault, and the state it leaves meets the invariant. -/
theorem noRunFaults : Obligations.NoRunFaults := by
  intro s inv n f
  induction n generalizing s with
  | zero => nofun
  | succ n ih =>
    intro hrun
    obtain hstep | ⟨t, hstep, htail⟩ := run_succ_fault (M := core) hrun
    · exact inv.step_ne_fault f hstep
    · exact ih t (stepKeepsInvariant s t inv hstep) htail

/-! ## The order of checks -/

/-- With no byte to write the answer is 0, whether the guard or the loop gives it (42_transfer R141). -/
theorem execWrite_zero (s : State) : execWrite 0 [] s = .next (s.respond 0 [] []) := by
  cases hp : s.present with
  | false => exact execWrite_absent hp []
  | true => simp [execWrite, hp, pushAll]

/-- With no byte to read the answer is 0, whether the guard or the loop gives it (42_transfer R151). -/
theorem execRead_zero (s : State) : execRead 0 s = .next (s.respond 0 [] []) := by
  cases hp : s.present with
  | false => exact execRead_absent hp 0
  | true => simp [execRead, hp, popAll]

/-- Settles O38: no loop runs for no bytes, and the guard keeps it from running on an absent buffer. -/
theorem orderOfChecks : Obligations.OrderOfChecks :=
  fun s => ⟨execWrite_zero s, execRead_zero s, fun hp => ⟨execWrite_absent hp, execRead_absent hp⟩⟩

end Sys2Proof.Machine

/-! SUPPORT. The reset and hazard rules of 70_reset_and_hazards: reset as an action of the host and at the pins (R220, R221), a
command presented while an operation is in progress (R231), and the end of an operation at the ports (R241). -/

namespace Sys2Proof.Machine

open Sys2Proof

/-! ## Reset -/

/-- Reset leaves unit F as it is right after reset, whatever it was (70_reset R220). -/
theorem resetBlock_unitF (s : State) : (resetBlock s).unitF = State.reset.unitF := rfl

/-- DEINIT leaves unit F as reset does (40_lifecycle R104; 70_reset R220). -/
theorem exec_deinit_unitF (s : State) : ∃ u, exec .deinit s = .next u ∧ u.unitF = State.reset.unitF := ⟨_, rfl, rfl⟩

/-- An edge with `rst` high samples the pins and resets the block, in every phase of the port (70_reset R221). -/
theorem UnitFInv.clockEdge_reset {s : State} (inv : UnitFInv s) {p : PinsIn} (advance : Bool) (hrst : p.rst = true) :
    ∃ o, clockEdge p advance s = .next (Machine.resetBlock { s.afterFull with pins := some o }) := by
  obtain ⟨o, -, hedge⟩ := inv.clockEdge_eq p advance
  exact ⟨o, by rw [hedge, if_pos hrst]⟩

/-- Settles O16: the action and the edge both leave `resetBlock` of a state that has the parameters, the DEC_OUT and the later
actions of the one before. -/
theorem resetWinsFromAnyState : Obligations.ResetWinsFromAnyState := by
  constructor
  · intro s rest hpending
    exact ⟨_, step_cons hpending, resetBlock_unitF _, resetBlock_burst _, resetBlock_response _, rfl, rfl, rfl,
      exec_deinit_unitF s⟩
  · intro s p advance rest inv hpending hrst
    have served : UnitFInv { s with pending := rest } := inv.congr rfl rfl
    obtain ⟨o, hedge⟩ := served.clockEdge_reset advance hrst
    exact ⟨_, (step_cons hpending).trans hedge, resetBlock_unitF _, resetBlock_burst _, resetBlock_response _, rfl, rfl,
      rfl, exec_deinit_unitF s⟩

/-! ## A command presented while the port is busy -/

section
variable {s : State} (h : s.burst.phase ≠ .idle) (p : PinsIn) (advance valid : Bool) (word : Nat)
include h

/-- A busy port looks neither at `cmd_valid` nor at `cmd`: with `cmd_valid` low no phase reads the word. -/
theorem portCycle_busy_command :
    portCycle { p with cmdValid := valid, cmd := word } advance s = portCycle p advance s :=
  calc
    _ = portCycle { p with cmdValid := false, cmd := word } advance s :=
      (portCycle_busy_cmdValid h { p with cmdValid := valid, cmd := word } advance false).symm
    _ = portCycle { p with cmdValid := false } advance s := rfl
    _ = portCycle p advance s := portCycle_busy_cmdValid h p advance false

/-- The output pins and reset do not depend on the command pins either. -/
theorem clockEdge_busy_command :
    clockEdge { p with cmdValid := valid, cmd := word } advance s = clockEdge p advance s := by
  cases ho : outputPins advance s with
  | error f => simp only [clockEdge, ho]
  | ok o =>
    have hport := portCycle_busy_command (s := { s.afterFull with pins := some o }) h p advance valid word
    simp only [clockEdge, ho, hport]

end

/-- Settles O46: neither the service of a transaction nor a clock edge looks at a command when the port is not idle, and
`cmd_ready` is high in the idle phase only. -/
theorem commandNotTakenWhileBusy : Obligations.CommandNotTakenWhileBusy := by
  intro s hbusy
  refine ⟨fun word data rest hpending => ?_, clockEdge_busy_command hbusy, fun advance o ho => ?_⟩
  · rw [step_cons hpending]
    exact serveOp_cmd_busy (s := { s with pending := rest }) hbusy word data
  · obtain ⟨-, hready, -⟩ := outputPins_frame ho
    simp [hready, hbusy]

/-! ## An operation at the ports ends -/

/-- How many bytes the burst still wants (10_state R36). -/
def State.bytesWanted (s : State) : Nat := s.burst.count - s.burst.index

/-- From `s` to `t` the operation in progress has come nearer to its end: it is answered, or it goes on and wants fewer bytes. -/
def State.Nearer (s t : State) : Prop :=
  t.burst.phase = .responding ∨ t.burst.phase ≠ .idle ∧ t.bytesWanted < s.bytesWanted

/-- A byte that crosses a stream of a burst that wants one brings the burst nearer to its end. -/
theorem State.nearer_nextByte {s t : State} {stream : List Byte} {phase : Phase} (hphase : phase ≠ .idle)
    (hlt : s.burst.index < s.burst.count) (hb : t.burst = ⟨phase, s.burst.index + 1, s.burst.count, stream⟩) :
    s.Nearer t := by
  refine .inr ⟨by rwa [hb], ?_⟩
  simp only [State.bytesWanted, hb]
  omega

section
variable {s : State} {p : PinsIn}

/-- A cycle of a WRITE burst takes the byte offered, or ends the burst because none is wanted or there is no room. -/
theorem UnitFInv.writeCycle_nearer (inv : UnitFInv s) (hwr : p.wrValid = true) :
    ∃ t, writeCycle p true s = .next t ∧ s.Nearer t := by
  cases hwants : s.wantsByte with
  | true =>
    obtain ⟨hlt, -⟩ := inv.wantsByte_iff.mp hwants
    obtain ⟨hpush, -⟩ := inv.push1_of_wantsByte hwants p.wrData
    rw [writeCycle, hwants, hwr, hpush]
    exact ⟨_, rfl, State.nearer_nextByte (phase := .writing) nofun hlt rfl⟩
  | false =>
    rw [writeCycle, hwants]
    exact ⟨_, rfl, .inl rfl⟩

/-- A cycle of a READ burst delivers a byte, or ends the burst because none is wanted or there is none. -/
theorem UnitFInv.readCycle_nearer (inv : UnitFInv s) (hrd : p.rdReady = true) :
    ∃ t, readCycle p true s = .next t ∧ s.Nearer t := by
  cases hhas : s.hasByte with
  | true =>
    obtain ⟨hlt, -⟩ := inv.hasByte_iff.mp hhas
    obtain ⟨b, hpop, -⟩ := inv.pop1_of_hasByte hhas
    rw [readCycle, hhas, hrd, hpop]
    exact ⟨_, rfl, State.nearer_nextByte (phase := .reading) nofun hlt rfl⟩
  | false =>
    rw [readCycle, hhas]
    exact ⟨_, rfl, .inl rfl⟩

/-- A cycle of a latched command performs it. -/
theorem UnitFInv.performCommand_nearer {i : Instr} (inv : UnitFInv s) (hw : WellFormed s.cfg i = true) :
    ∃ t, performCommand i s = .next t ∧ s.Nearer t := by
  obtain ⟨t, ht⟩ := inv.performCommand_completes hw
  obtain ⟨u, -, rfl⟩ := performCommand_next ht
  exact ⟨_, ht, .inl rfl⟩

theorem Inv.portCycle_nearer (inv : Inv s) (hidle : s.burst.phase ≠ .idle) (hresp : s.burst.phase ≠ .responding)
    (hwr : p.wrValid = true) (hrd : p.rdReady = true) :
    ∃ t, Machine.portCycle p true s = .next t ∧ s.Nearer t := by
  cases hph : s.burst.phase with
  | idle => exact absurd hph hidle
  | command i =>
    obtain ⟨-, -, hw⟩ := (burstOk_command_iff hph).mp inv.burst
    rw [portCycle_command hph, if_pos rfl]
    exact inv.unitF.performCommand_nearer hw
  | writing => rw [portCycle_writing hph]; exact inv.unitF.writeCycle_nearer hwr
  | reading => rw [portCycle_reading hph]; exact inv.unitF.readCycle_nearer hrd
  | responding => exact absurd hph hresp

/-- An edge on which the streams move and the block is ready brings an operation in progress nearer to its end. -/
theorem Inv.clockEdge_nearer (inv : Inv s) (hidle : s.burst.phase ≠ .idle) (hresp : s.burst.phase ≠ .responding)
    (hrst : p.rst = false) (hwr : p.wrValid = true) (hrd : p.rdReady = true) :
    ∃ t, Machine.clockEdge p true s = .next t ∧ s.Nearer t := by
  obtain ⟨o, w, -, hedge, hcfg, hunit, hburst, hr, -⟩ := inv.unitF.clockEdge_sampled true hrst
  have sampled : Inv w := inv.congr hcfg hunit hburst hr
  obtain ⟨t, ht, hnear⟩ := sampled.portCycle_nearer (by rwa [hburst]) (by rwa [hburst]) hwr hrd
  refine ⟨t, hedge.trans ht, ?_⟩
  rwa [State.Nearer, State.bytesWanted, State.bytesWanted, hburst] at hnear

end

/-- The run after an edge of an operation in progress makes a run of the operation. -/
theorem runUntilResponse_of_edge {s u t : State} {p : PinsIn} {advance : Bool} {es : List (PinsIn × Bool)}
    {taken out : List Byte} (hs : s.burst.phase ≠ .responding) (hedge : clockEdge p advance s = .next u)
    (h : runUntilResponse es u = some (taken, out, t)) :
    runUntilResponse ((p, advance) :: es) s =
      some (edgeTaken p advance s ++ taken, edgeOut p advance s ++ out, t) := by
  simp [runUntilResponse, hs, hedge, h]

/-- Settles O52, by induction on the edges: each answers the operation or leaves fewer bytes wanted. -/
theorem portOperationEnds : Obligations.PortOperationEnds := by
  intro s es inv hidle hes hlen
  induction es generalizing s with
  | nil => simp at hlen
  | cons e es ih =>
    by_cases hresp : s.burst.phase = .responding
    · exact ⟨_, _, s, runUntilResponse_responding hresp _, hresp⟩
    · obtain ⟨p, advance⟩ := e
      obtain ⟨hrst, hwr, hrd, rfl⟩ := hes (p, advance) (by simp)
      obtain ⟨u, hedge, hnear⟩ := inv.clockEdge_nearer hidle hresp hrst hwr hrd
      obtain ⟨taken, out, t, hrun, ht⟩ : ∃ taken out t, runUntilResponse es u = some (taken, out, t) ∧
          t.burst.phase = .responding := by
        obtain hend | ⟨hbusy, hfewer⟩ := hnear
        · exact ⟨_, _, u, runUntilResponse_responding hend es, hend⟩
        · refine ih u (inv.clockEdge hedge) hbusy (fun e he => hes e (by simp [he])) ?_
          rw [State.bytesWanted, State.bytesWanted] at hfewer
          rw [List.length_cons] at hlen
          omega
      exact ⟨_, _, t, runUntilResponse_of_edge hresp hedge hrun, ht⟩

end Sys2Proof.Machine
